-- ==== Sys2Proof/Word.lean ====
section
/-! DEFINITION. The word types of the CSCE212 core (00_scope.md R7, R9 to R11).

A register value, ALU operand, memory word, program counter and address is a 32-bit vector (R10). The operators
of R11 are those of `BitVec`: `+` and `-` modulo 2^32, `<<<`, `&&&`, `|||`, `++` for concatenation with the left
part in the high bits, `setWidth` for zero extension, `signExtend` for sign extension, `toNat` for the unsigned
reading. -/

namespace Sys2Proof

/-- A 32-bit word (R10). -/
abbrev Word := BitVec 32

/-- The unit both memories are addressed in (20_memory.md R50). -/
abbrev Byte := BitVec 8

/-- A register field: a 5-bit index, every value of which names a register (30_encoding.md R87). -/
abbrev RegIx := BitVec 5

end Sys2Proof
end

