-- ==== Sys2Proof/Config.lean ====
section
/-! DEFINITION. What an implementation fixes (00_scope.md R7, 10_state.md R37).

The spec's open parameters are fields of one record, so that every claim over a state holds for every value of
them. No instruction leaves a value undefined, so this model has no free value. -/

namespace Sys2Proof

/-- The implementation parameters of R7. They are fixed before reset is released and do not change during a run
(R37); the model's state carries the record and no step writes it (log 1). -/
structure Config where
  /-- IMEM_BYTES, the capacity of instruction memory (D18). -/
  imemBytes : Nat
  /-- DMEM_BYTES, the capacity of data memory (D18). -/
  dmemBytes : Nat
  /-- SENTINEL, the halt threshold on the program counter (D19). -/
  sentinel  : Word
  /-- STEP_LIMIT, the optional guard on the number of completed steps, `none` for NONE (D21). -/
  stepLimit : Option Nat
  deriving DecidableEq, Repr

/-- The configuration of `State.reset`. DESIGN CHOICE (log 2): the spec leaves the sizes and SENTINEL open, so the
whole 32-bit address space is present and SENTINEL is the largest value; STEP_LIMIT is NONE, the spec's default
(60_exceptions.md R195). -/
def Config.initial : Config where
  imemBytes := 2 ^ 32
  dmemBytes := 2 ^ 32
  sentinel := 0xFFFFFFFF#32
  stepLimit := none

end Sys2Proof
end

