-- ==== Sys2Proof/Syntax.lean ====
section
/-! DEFINITION. The instructions as data: one constructor for each row of spec/opcode_table.json, and the
operand view of the codec (30_encoding.md R99, R100, R104). -/

namespace Sys2Proof

/-- The instructions, in the table's order, operands in the assembler's order (R100). A word whose func is in no
row has no constructor: the decoder rejects it by name and the step runs it as the no-op of R171 (log 10). -/
inductive Instr where
  /-- ADD, func 0 (41_alu_ops.md R140). -/
  | add  (rd rs rt : RegIx)
  /-- SUB, func 1 (R141). -/
  | sub  (rd rs rt : RegIx)
  /-- LWR, func 2, reserved: no operands are defined (44_reserved_noop.md R170, log 11). -/
  | lwr
  /-- ADDI, func 5 (R142). -/
  | addi (rt rs : RegIx) (imm : BitVec 16)
  /-- LW, func 8 (42_load_store.md R150). -/
  | lw   (rt rs : RegIx) (imm : BitVec 16)
  /-- SW, func 9 (R151). -/
  | sw   (rt rs : RegIx) (imm : BitVec 16)
  /-- BEQ, func 12 (43_control_transfer.md R160). -/
  | beq  (rt rs : RegIx) (imm : BitVec 16)
  /-- J, func 15 (R161). -/
  | j    (imm : BitVec 26)
  deriving DecidableEq, Repr

/-- The three word layouts (30_encoding.md R81 to R83). -/
inductive Format where
  | r
  | i
  | j
  deriving DecidableEq, Repr

/-- The mnemonics of the codec's opcode table. LWR is not among them (R99). -/
inductive Mnemonic where
  | add
  | sub
  | addi
  | lw
  | sw
  | beq
  | j
  deriving DecidableEq, Repr

/-- One instruction as the codec sees it: the mnemonic and its operands as integers in textual order (R100, R104). -/
structure AsmOp where
  mnemonic : Mnemonic
  ops      : List Int
  deriving DecidableEq, Repr

end Sys2Proof
end

