-- ==== Sys2Proof/WellFormed.lean ====
section
/-! DEFINITION. What is well formed: a configuration (00_scope.md R7) and a codec operand list (30_encoding.md
R105).

Every term of `Instr` is a well-formed instruction, by the types of its fields: every 5-bit field names a register
(R87), every 16-bit and 26-bit field is a legal immediate (R85, R86), and no encoding is illegal (R93). -/

namespace Sys2Proof

/-- A memory capacity: a multiple of 4 between 4 and 2^32 (R7). -/
def sizeLegal (n : Nat) : Bool :=
  n % 4 == 0 && decide (4 ≤ n) && decide (n ≤ 2 ^ 32)

/-- The constraints of R7 on the parameters. SENTINEL < 2^32 holds by its type. -/
def Config.wf (c : Config) : Bool :=
  sizeLegal c.imemBytes && sizeLegal c.dmemBytes && c.sentinel != 0#32 && c.stepLimit != some 0

/-- The format of a mnemonic (30_encoding.md R88). -/
def Mnemonic.format : Mnemonic → Format
  | .add | .sub => .r
  | .addi | .lw | .sw | .beq => .i
  | .j => .j

/-- A register operand: 0 to 31 (R101, R105). -/
def regLegal (n : Int) : Bool := decide (0 ≤ n) && decide (n ≤ 31)

/-- An I-type immediate in its signed range (R85, R105). -/
def imm16Legal (n : Int) : Bool := decide (-32768 ≤ n) && decide (n ≤ 32767)

/-- A J-type immediate in its signed range (R86, R105). -/
def imm26Legal (n : Int) : Bool := decide (-(2 ^ 25) ≤ n) && decide (n ≤ 2 ^ 25 - 1)

/-- Operands within each field's legal range, in the number the format takes (R100, R105). -/
def AsmOp.legal (o : AsmOp) : Bool :=
  match o.mnemonic.format, o.ops with
  | .r, [a, b, c] => regLegal a && regLegal b && regLegal c
  | .i, [a, b, n] => regLegal a && regLegal b && imm16Legal n
  | .j, [n] => imm26Legal n
  | _, _ => false

end Sys2Proof
end

