-- ==== Sys2Proof/Decode.lean ====
section
/-! DEFINITION. The decoder (30_encoding.md R80 to R96), the encoder (R103) and the byte order of a word
(20_memory.md R57). -/

namespace Sys2Proof

/-! ## Byte order -/

/-- The word of four bytes, lowest address first: big-endian (R57, decision D1). -/
def wordOfBytes (b0 b1 b2 b3 : Byte) : Word :=
  (b0 ++ b1 ++ b2 ++ b3 : BitVec (8 + 8 + 8 + 8))

/-- Byte `k` of a word as it lies in memory, `k` counted from the lowest address: byte 0 holds bits 31:24 (R57). -/
def byteOfWord (w : Word) (k : Nat) : Byte :=
  w.extractLsb' (8 * (3 - k)) 8

/-! ## Field extraction (R84): unconditional, the same for every word -/

/-- func = IR[31:26]. -/
def fieldFunc (ir : Word) : BitVec 6 := ir.extractLsb' 26 6
/-- rs = IR[25:21]. -/
def fieldRs (ir : Word) : RegIx := ir.extractLsb' 21 5
/-- rt = IR[20:16]. -/
def fieldRt (ir : Word) : RegIx := ir.extractLsb' 16 5
/-- rd = IR[15:11]. -/
def fieldRd (ir : Word) : RegIx := ir.extractLsb' 11 5
/-- imm16 = IR[15:0]. -/
def fieldImm16 (ir : Word) : BitVec 16 := ir.extractLsb' 0 16
/-- jimm26 = IR[25:0]. -/
def fieldJimm26 (ir : Word) : BitVec 26 := ir.extractLsb' 0 26
/-- simm = sext_32(imm16) (R85). -/
def signExtImm (imm : BitVec 16) : Word := imm.signExtend 32

/-! ## The func map (R89) -/

def funcAdd  : BitVec 6 := 0b000000#6
def funcSub  : BitVec 6 := 0b000001#6
def funcLwr  : BitVec 6 := 0b000010#6
def funcAddi : BitVec 6 := 0b000101#6
def funcLw   : BitVec 6 := 0b001000#6
def funcSw   : BitVec 6 := 0b001001#6
def funcBeq  : BitVec 6 := 0b001100#6
def funcJ    : BitVec 6 := 0b001111#6

/-! ## The decoder -/

/-- Why the decoder gives no instruction. Neither stops the machine: a word with an unrecognized func executes as
a no-op (44_reserved_noop.md R171), and a fetch always yields four bytes. -/
inductive DecodeRefusal where
  /-- The func value is in no row of the table (R88, R104's verdict Unknown(func)). -/
  | unrecognizedFunc (func : BitVec 6)
  /-- Fewer than four bytes were given; every instruction is one 32-bit word (R80). -/
  | truncated
  deriving DecidableEq, Repr

/-- The instruction of a word: func alone selects the format (R88), the unused bits of an R-type word are ignored
(R94). -/
def decode (ir : Word) : Except DecodeRefusal Instr :=
  let func := fieldFunc ir
  if func = funcAdd then .ok (.add (fieldRd ir) (fieldRs ir) (fieldRt ir))
  else if func = funcSub then .ok (.sub (fieldRd ir) (fieldRs ir) (fieldRt ir))
  else if func = funcLwr then .ok .lwr
  else if func = funcAddi then .ok (.addi (fieldRt ir) (fieldRs ir) (fieldImm16 ir))
  else if func = funcLw then .ok (.lw (fieldRt ir) (fieldRs ir) (fieldImm16 ir))
  else if func = funcSw then .ok (.sw (fieldRt ir) (fieldRs ir) (fieldImm16 ir))
  else if func = funcBeq then .ok (.beq (fieldRt ir) (fieldRs ir) (fieldImm16 ir))
  else if func = funcJ then .ok (.j (fieldJimm26 ir))
  else .error (.unrecognizedFunc func)

/-- Decoding from bytes in memory order, with the bytes that follow the instruction. -/
def decodeBytes : List Byte → Except DecodeRefusal (Instr × List Byte)
  | b0 :: b1 :: b2 :: b3 :: rest =>
    match decode (wordOfBytes b0 b1 b2 b3) with
    | .ok i => .ok (i, rest)
    | .error e => .error e
  | _ => .error .truncated

/-- The host's view of the decoder: the low `nbits` bits of `w` as an instruction word, bits above them 0, laid out
in memory order and decoded. Every row of the table has 32 bits. -/
def decodeTableWord (nbits w : Nat) : Option Instr :=
  let word := BitVec.ofNat 32 (w % 2 ^ nbits)
  match decodeBytes [byteOfWord word 0, byteOfWord word 1, byteOfWord word 2, byteOfWord word 3] with
  | .ok (i, _) => some i
  | .error _ => none

/-! ## The encoder -/

/-- An R-type word; bits 10:0 are written 0 (R81, R94, R103). -/
def encodeR (func : BitVec 6) (rd rs rt : RegIx) : Word :=
  (func ++ rs ++ rt ++ rd ++ (0#11) : BitVec (6 + 5 + 5 + 5 + 11))

/-- An I-type word (R82, R103). -/
def encodeI (func : BitVec 6) (rt rs : RegIx) (imm : BitVec 16) : Word :=
  (func ++ rs ++ rt ++ imm : BitVec (6 + 5 + 5 + 16))

/-- A J-type word (R83, R103). -/
def encodeJ (func : BitVec 6) (imm : BitVec 26) : Word :=
  (func ++ imm : BitVec (6 + 26))

/-- The func value of an instruction (R89). -/
def Instr.func : Instr → BitVec 6
  | .add .. => funcAdd
  | .sub .. => funcSub
  | .lwr => funcLwr
  | .addi .. => funcAddi
  | .lw .. => funcLw
  | .sw .. => funcSw
  | .beq .. => funcBeq
  | .j .. => funcJ

/-- The word of an instruction (R103). The spec's assembler has no LWR (R99): its 26 open bits are written 0,
DESIGN CHOICE (log 11). -/
def encode : Instr → Word
  | .add rd rs rt => encodeR funcAdd rd rs rt
  | .sub rd rs rt => encodeR funcSub rd rs rt
  | .lwr => encodeJ funcLwr 0#26
  | .addi rt rs imm => encodeI funcAddi rt rs imm
  | .lw rt rs imm => encodeI funcLw rt rs imm
  | .sw rt rs imm => encodeI funcSw rt rs imm
  | .beq rt rs imm => encodeI funcBeq rt rs imm
  | .j imm => encodeJ funcJ imm

/-- The instruction's bytes in memory order. -/
def encodeBytes (i : Instr) : List Byte :=
  [byteOfWord (encode i) 0, byteOfWord (encode i) 1, byteOfWord (encode i) 2, byteOfWord (encode i) 3]

end Sys2Proof
end

