-- ==== Sys2Proof/Machine/State.lean ====
section
/-! DEFINITION. The state of the core as plain data (10_state.md), the reasons a step stops, and the state after
reset (R38, 70_reset_and_hazards.md R200). -/

namespace Sys2Proof.Machine

/-- The ALU's arithmetic mode (30_encoding.md R92). -/
inductive AluOp where
  | add
  | sub
  deriving DecidableEq, Repr

/-- The control-signal vector: nine independent signals (30_encoding.md R91, R92). -/
structure Ctl where
  regDst   : Bool
  jump     : Bool
  branch   : Bool
  memRead  : Bool
  memToReg : Bool
  aluOp    : AluOp
  memWrite : Bool
  aluSrc   : Bool
  regWrite : Bool
  deriving DecidableEq, Repr

/-- The sequencer's state (10_state.md R33). -/
inductive Seq where
  /-- Reset is asserted, nothing executes. -/
  | reset
  | fetch
  | decode
  | regread
  | execute
  | memory
  | writeback
  /-- Stopped: the committed pc reached SENTINEL. -/
  | haltedSentinel
  /-- Stopped: the committed pc is 0. -/
  | haltedLoop
  /-- Stopped by a fault. -/
  | faulted
  /-- Stopped by the optional step-count guard. -/
  | stoppedLimit
  deriving DecidableEq, Repr

/-- The fault codes 0 to 6 (60_exceptions.md R181). -/
inductive FaultCode where
  | none
  | fetchMisaligned
  | fetchOutOfRange
  | loadMisaligned
  | loadOutOfRange
  | storeMisaligned
  | storeOutOfRange
  deriving DecidableEq, Repr

/-- The fault record (10_state.md R35, 60_exceptions.md R182). -/
structure FaultRecord where
  code : FaultCode
  pc   : Word
  addr : Word
  ir   : Word
  deriving DecidableEq, Repr

/-- The fault record outside FAULTED: fault_code is NONE (R35); the other fields are 0, as after reset (R38). -/
def FaultRecord.cleared : FaultRecord := ⟨.none, 0#32, 0#32, 0#32⟩

/-- The per-step datapath record (10_state.md R34), with the scratch names of 00_scope.md R13 and the step's own pc
(60_exceptions.md R193). It is made anew at every FETCH. `memData` and `wbValue` are `none` while they have no
value (40_datapath.md R128). -/
structure Scratch where
  pc           : Word
  ir           : Word
  pcPlus4      : Word
  func         : BitVec 6
  rs           : RegIx
  rt           : RegIx
  rd           : RegIx
  imm16        : BitVec 16
  simm         : Word
  jimm26       : BitVec 26
  ctl          : Ctl
  wbIndex      : RegIx
  rsVal        : Word
  rtVal        : Word
  aluB         : Word
  jumpTarget   : Word
  branchTarget : Word
  aluResult    : Word
  zero         : Bool
  memData      : Option Word
  nextPc       : Word
  wbValue      : Option Word
  deriving DecidableEq, Repr

/-- The record before anything is written to it. The spec gives its fields no value then (R38); the model writes
zeros, no value and the inert vector. DESIGN CHOICE (log 9). -/
def Scratch.blank : Scratch where
  pc := 0
  ir := 0
  pcPlus4 := 0
  func := 0
  rs := 0
  rt := 0
  rd := 0
  imm16 := 0
  simm := 0
  jimm26 := 0
  ctl := ⟨false, false, false, false, false, .add, false, false, false⟩
  wbIndex := 0
  rsVal := 0
  rtVal := 0
  aluB := 0
  jumpTarget := 0
  branchTarget := 0
  aluResult := 0
  zero := false
  memData := none
  nextPc := 0
  wbValue := none

/-- The contents of one memory (20_memory.md R50): the bytes that differ from what an unlisted address reads as, by
rising address (`Memory.wf` in Machine/Ops.lean). -/
structure Memory where
  cells : List Host.Cell
  deriving DecidableEq, Repr

/-- Everything the spec gives the core (10_state.md), and the configuration it runs under (log 1). -/
structure State where
  /-- The parameters of 00_scope.md R7; no step writes them (R37). -/
  config  : Config
  /-- x[0] to x[31] (R20). -/
  regs    : Vector Word 32
  /-- The program counter (R25). -/
  pc      : Word
  /-- Instruction memory (R32). -/
  imem    : Memory
  /-- Data memory (R32). -/
  dmem    : Memory
  /-- The sequencer (R33). -/
  seq     : Seq
  /-- The fault record (R35). -/
  fault   : FaultRecord
  /-- Completed steps, modulo 2^64 (R36). -/
  icount  : BitVec 64
  /-- The per-step record (R34), with the instruction register. -/
  scratch : Scratch
  deriving DecidableEq, Repr

/-- Why `step` answers no next state. All are raised by `step` alone, in a sequencer state in which the spec
enables no step (60_exceptions.md R186, 70_reset_and_hazards.md R200). All are SAFE: the machine makes no step
there either (log 7). The core's own faults are not here: their entry is a next state (R183). -/
inductive Fault where
  /-- seq = RESET: raised by `step`; safe, no step runs while reset is asserted (R200). -/
  | resetAsserted
  /-- seq = HALTED_SENTINEL: raised by `step`; safe, the state is terminal (R186). -/
  | haltedSentinel
  /-- seq = HALTED_LOOP: raised by `step`; safe, the state is terminal (R186). -/
  | haltedLoop
  /-- seq = FAULTED: raised by `step`; safe, the state is terminal until reset (R186). -/
  | faulted
  /-- seq = STOPPED_LIMIT: raised by `step`; safe, the state is terminal and is no halt of the hardware (R195). -/
  | stoppedLimit
  deriving DecidableEq, Repr

/-- Why an instruction would have no meaning. No meaning of this model refuses. -/
inductive Refusal where
  /-- An arm of `exec` without a meaning would raise this; none does. Safe: it proves nothing of the hardware. -/
  | notModelled (mnemonic : String)
  deriving DecidableEq, Repr

/-- The machine right after reset (R38): pc 0, icount 0, fault_code NONE, seq FETCH. DESIGN CHOICE where the spec
takes a parameter: x[1..31] are 0 (log 3), DMEM is 0 (log 4), IMEM holds no program (logs 5, 6), the configuration is
`Config.initial` (log 2). `State.released` (Machine/HostPort.lean) is reset for every value the host may supply. -/
def State.reset : State where
  config := Config.initial
  regs := Vector.replicate 32 0#32
  pc := 0#32
  imem := ⟨[]⟩
  dmem := ⟨[]⟩
  seq := .fetch
  fault := FaultRecord.cleared
  icount := 0#64
  scratch := Scratch.blank

end Sys2Proof.Machine
end

