-- ==== Sys2Proof/Machine/Flags.lean ====
section
/-! DEFINITION. The ALU and the one condition flag, Zero (40_datapath.md R126, R127, 10_state.md R29). -/

namespace Sys2Proof.Machine

/-- The ALU's result: the low 32 bits of the exact sum or difference; overflow is not detected (R127, D7). -/
def aluOut : AluOp → Word → Word → Word
  | .add, a, b => a + b
  | .sub, a, b => a - b

/-- Zero = (result == 0) (R127). -/
def zeroFlag (r : Word) : Bool := r == 0#32

/-- ALU(op, a, b) = (result, zero) (R127). -/
def alu (op : AluOp) (a b : Word) : Word × Bool :=
  (aluOut op a b, zeroFlag (aluOut op a b))

end Sys2Proof.Machine
end

