-- ==== Sys2Proof/Machine/Ops.lean ====
section
/-! DEFINITION. The named operations over registers and memories, the entry of a fault and the commit of a step. -/

namespace Sys2Proof.Machine

/-! ## Register file (10_state.md R20, R21, R23) -/

/-- `x[i]`. There is no special case on a read: x[0] holds 0 from reset and is never written (R21). -/
def State.readReg (s : State) (i : RegIx) : Word :=
  s.regs[i.toNat]'(i.isLt)

/-- `x[i] <- v`: a write with index 0 changes nothing (R21). -/
def State.writeReg (s : State) (i : RegIx) (v : Word) : State :=
  if i = 0#5 then s else { s with regs := s.regs.set i.toNat v i.isLt }

/-! ## Memory contents -/

/-- What an address that is not listed reads as. DESIGN CHOICE (logs 4, 5): a listing of the nonzero bytes
represents every contents, so this constant chooses nothing but the contents `State.reset` starts from. -/
def Memory.unlisted : Byte := 0#8

def cellsRead : List Host.Cell → Nat → Byte
  | [], _ => Memory.unlisted
  | (b, v) :: rest, a => if b = a then v else cellsRead rest a

/-- Put one byte, keeping the listing canonical: the unlisted value removes the entry. -/
def cellsWrite : List Host.Cell → Nat → Byte → List Host.Cell
  | [], a, v => if v = Memory.unlisted then [] else [(a, v)]
  | (b, w) :: rest, a, v =>
    if a < b then (if v = Memory.unlisted then (b, w) :: rest else (a, v) :: (b, w) :: rest)
    else if a = b then (if v = Memory.unlisted then rest else (a, v) :: rest)
    else (b, w) :: cellsWrite rest a v

def cellsWf : List Host.Cell → Bool
  | [] => true
  | (a, v) :: rest => v != Memory.unlisted && rest.all (fun c => decide (a < c.1)) && cellsWf rest

/-- One byte of a memory. -/
def Memory.read (m : Memory) (a : Nat) : Byte := cellsRead m.cells a

/-- One byte written. -/
def Memory.write (m : Memory) (a : Nat) (v : Byte) : Memory := ⟨cellsWrite m.cells a v⟩

/-- The canonical form: addresses strictly rising, no entry equal to what an unlisted address reads as. -/
def Memory.wf (m : Memory) : Bool := cellsWf m.cells

/-- Every listed byte lies in a memory of `size` bytes. -/
def Memory.within (m : Memory) (size : Nat) : Bool := m.cells.all (fun c => decide (c.1 < size))

/-- The word at `a`, big-endian (20_memory.md R57). -/
def Memory.readWord (m : Memory) (a : Nat) : Word :=
  wordOfBytes (m.read a) (m.read (a + 1)) (m.read (a + 2)) (m.read (a + 3))

/-- The word at `a` written, big-endian (R57, R60). -/
def Memory.writeWord (m : Memory) (a : Nat) (v : Word) : Memory :=
  (((m.write a (byteOfWord v 0)).write (a + 1) (byteOfWord v 1)).write (a + 2) (byteOfWord v 2)).write (a + 3)
    (byteOfWord v 3)

/-! ## Checked accesses (20_memory.md R53 to R61) -/

/-- The three accesses a step can make. -/
inductive Access where
  | fetch
  | load
  | store
  deriving DecidableEq, Repr

/-- The code of a misaligned access (R54). -/
def misalignedCode : Access → FaultCode
  | .fetch => .fetchMisaligned
  | .load => .loadMisaligned
  | .store => .storeMisaligned

/-- The code of an access out of range (R55). -/
def outOfRangeCode : Access → FaultCode
  | .fetch => .fetchOutOfRange
  | .load => .loadOutOfRange
  | .store => .storeOutOfRange

/-- `a[1:0] == 0b00` (R54). -/
def wordAligned (a : Word) : Bool := a.extractLsb' 0 2 == 0#2

/-- `unsigned(a) + 4 <= SIZE`, on unbounded integers (R55). -/
def inRange (size : Nat) (a : Word) : Bool := decide (a.toNat + 4 ≤ size)

/-- The check of one access: alignment first, then range (R56). -/
def accessFault (k : Access) (size : Nat) (a : Word) : Option FaultCode :=
  if !wordAligned a then some (misalignedCode k)
  else if !inRange size a then some (outOfRangeCode k)
  else none

/-- MemRead(a, 4) (R59). -/
def State.memRead (s : State) (a : Word) : Except FaultCode Word :=
  match accessFault .load s.config.dmemBytes a with
  | some c => .error c
  | none => .ok (s.dmem.readWord a.toNat)

/-- MemWrite(a, 4, v) (R60). -/
def State.memWrite (s : State) (a v : Word) : Except FaultCode State :=
  match accessFault .store s.config.dmemBytes a with
  | some c => .error c
  | none => .ok { s with dmem := s.dmem.writeWord a.toNat v }

/-- IMemRead(a, 4) (R61). -/
def State.imemRead (s : State) (a : Word) : Except FaultCode Word :=
  match accessFault .fetch s.config.imemBytes a with
  | some c => .error c
  | none => .ok (s.imem.readWord a.toNat)

/-! ## Faults (60_exceptions.md R181 to R186) -/

/-- The number of a fault code (R181). -/
def FaultCode.number : FaultCode → Nat
  | .none => 0
  | .fetchMisaligned => 1
  | .fetchOutOfRange => 2
  | .loadMisaligned => 3
  | .loadOutOfRange => 4
  | .storeMisaligned => 5
  | .storeOutOfRange => 6

/-- Taking a fault (R182, R183): seq becomes FAULTED and the fault record is written with the code, the pc of the
instruction, the address and the instruction word (0 for a fetch fault). Nothing else changes. The core has no
return from it: only reset leaves FAULTED (R186, `State.assertReset`). -/
def State.enterFault (s : State) (code : FaultCode) (addr ir : Word) : State :=
  { s with seq := .faulted, fault := ⟨code, s.pc, addr, ir⟩ }

/-! ## Commit (40_datapath.md R131, R132) -/

/-- The guard STEP_LIMIT is set and reached (R132). -/
def limitReached (c : Config) (icount : BitVec 64) : Bool :=
  match c.stepLimit with
  | none => false
  | some n => decide (n ≤ icount.toNat)

/-- The termination check on the committed pc and count (R132). -/
def terminationSeq (c : Config) (pc : Word) (icount : BitVec 64) : Seq :=
  if c.sentinel ≤ pc then .haltedSentinel
  else if pc = 0#32 then .haltedLoop
  else if limitReached c icount then .stoppedLimit
  else .fetch

/-- The commit of a step (R131): pc, icount, then the termination check. -/
def State.commit (s : State) (nextPc : Word) : State :=
  { s with
    pc := nextPc
    icount := s.icount + 1#64
    seq := terminationSeq s.config nextPc (s.icount + 1#64) }

end Sys2Proof.Machine
end

