-- ==== Sys2Proof/Machine/Operands.lean ====
section
/-! DEFINITION. The operand forms of the instruction set: program-counter candidates (40_datapath.md R121, R124,
R125) and the one addressing mode (42_load_store.md). -/

namespace Sys2Proof.Machine

/-- pc_plus4 = pc + 4, modulo 2^32 (R121, 10_state.md R28). -/
def pcPlusFour (pc : Word) : Word := pc + 4#32

/-- branch_target = pc_plus4 + (simm << 2), modulo 2^32 (R125). -/
def branchTargetOf (pc4 simm : Word) : Word := pc4 + (simm <<< 2)

/-- jump_target = (pc_plus4 & 0xF0000000) | (zext_32(jimm26) << 2) (R124, decision D8). -/
def jumpTargetOf (pc4 : Word) (jimm : BitVec 26) : Word :=
  (pc4 &&& 0xF0000000#32) ||| (jimm.setWidth 32 <<< 2)

/-- The effective address: base register plus sign-extended byte offset, no scaling, no update of the base
(42_load_store.md R150, R151). -/
def State.effectiveAddr (s : State) (rs : RegIx) (imm : BitVec 16) : Word :=
  s.readReg rs + signExtImm imm

/-- The end of every instruction that does not transfer control: commit with pc + 4 (40_datapath.md R129, R131). -/
def State.advance (s : State) : State := s.commit (pcPlusFour s.pc)

end Sys2Proof.Machine
end

