-- ==== Sys2Proof/Machine/Arith.lean ====
section
/-! DEFINITION. The arithmetic instructions (41_alu_ops.md). Zero is computed and not kept (10_state.md R29). -/

namespace Sys2Proof.Machine

/-- ADD (R140): x[rd] <- x[rs] + x[rt]; pc <- pc + 4. -/
def execAdd (rd rs rt : RegIx) (s : State) : Host.Outcome State Fault Refusal :=
  .next (s.writeReg rd (aluOut .add (s.readReg rs) (s.readReg rt))).advance

/-- SUB (R141): x[rd] <- x[rs] - x[rt]; pc <- pc + 4. -/
def execSub (rd rs rt : RegIx) (s : State) : Host.Outcome State Fault Refusal :=
  .next (s.writeReg rd (aluOut .sub (s.readReg rs) (s.readReg rt))).advance

/-- ADDI (R142): x[rt] <- x[rs] + sext_32(imm16); pc <- pc + 4. -/
def execAddi (rt rs : RegIx) (imm : BitVec 16) (s : State) : Host.Outcome State Fault Refusal :=
  .next (s.writeReg rt (aluOut .add (s.readReg rs) (signExtImm imm))).advance

end Sys2Proof.Machine
end

