-- ==== Sys2Proof/Machine/Branch.lean ====
section
/-! DEFINITION. Control transfer (43_control_transfer.md): no delay slot, no link register. -/

namespace Sys2Proof.Machine

/-- BEQ (R160): to (pc + 4) + (sext_32(imm16) << 2) when x[rs] - x[rt] is zero, else to pc + 4. -/
def execBeq (rt rs : RegIx) (imm : BitVec 16) (s : State) : Host.Outcome State Fault Refusal :=
  if zeroFlag (aluOut .sub (s.readReg rs) (s.readReg rt)) then
    .next (s.commit (branchTargetOf (pcPlusFour s.pc) (signExtImm imm)))
  else .next s.advance

/-- J (R161): to ((pc + 4) & 0xF0000000) | (zext_32(jimm26) << 2). -/
def execJ (imm : BitVec 26) (s : State) : Host.Outcome State Fault Refusal :=
  .next (s.commit (jumpTargetOf (pcPlusFour s.pc) imm))

end Sys2Proof.Machine
end

