-- ==== Sys2Proof/Machine/LoadStore.lean ====
section
/-! DEFINITION. Load and store (42_load_store.md). A bad address takes the fault of 60_exceptions.md R181 to R183;
fault_ir is the instruction register (log 12). -/

namespace Sys2Proof.Machine

/-- LW (R150): x[rt] <- MemRead(x[rs] + sext_32(imm16), 4); pc <- pc + 4. The access is made, and can fault, with
rt = 0 too. -/
def execLw (rt rs : RegIx) (imm : BitVec 16) (s : State) : Host.Outcome State Fault Refusal :=
  match s.memRead (s.effectiveAddr rs imm) with
  | .error c => .next (s.enterFault c (s.effectiveAddr rs imm) s.scratch.ir)
  | .ok v => .next (s.writeReg rt v).advance

/-- SW (R151): MemWrite(x[rs] + sext_32(imm16), 4, x[rt]); pc <- pc + 4. -/
def execSw (rt rs : RegIx) (imm : BitVec 16) (s : State) : Host.Outcome State Fault Refusal :=
  match s.memWrite (s.effectiveAddr rs imm) (s.readReg rt) with
  | .error c => .next (s.enterFault c (s.effectiveAddr rs imm) s.scratch.ir)
  | .ok s' => .next s'.advance

end Sys2Proof.Machine
end

