-- ==== Sys2Proof/Machine/Reserved.lean ====
section
/-! DEFINITION. Reserved and unrecognized func values execute as no-ops (44_reserved_noop.md). -/

namespace Sys2Proof.Machine

/-- LWR (R170): pc <- pc + 4, nothing else but icount (decision D12, log 11). -/
def execLwr (s : State) : Host.Outcome State Fault Refusal := .next s.advance

/-- A word with an unrecognized func (R171): pc <- pc + 4, nothing else but icount. It is no constructor of
`Instr`; `step` runs it (log 10). -/
def execUnrecognized (s : State) : Host.Outcome State Fault Refusal := .next s.advance

end Sys2Proof.Machine
end

