-- ==== Sys2Proof/Machine/Control.lean ====
section
/-! DEFINITION. The control unit: a pure table lookup keyed by func (30_encoding.md R91, R92). -/

namespace Sys2Proof.Machine

/-- A control vector in the column order of R91's table: RegDst, Jump, Branch, MemRead, MemtoReg, ALUOp, MemWrite,
ALUSrc, RegWrite. -/
def ctlRow (regDst jump branch memRead memToReg : Bool) (aluOp : AluOp) (memWrite aluSrc regWrite : Bool) : Ctl :=
  ⟨regDst, jump, branch, memRead, memToReg, aluOp, memWrite, aluSrc, regWrite⟩

/-- The inert vector of every func without a row, LWR included (R91, decisions D12, D31). -/
def ctlInert : Ctl := ctlRow false false false false false .add false false false

/-- `ctl = Control(func)` (R91). The don't-care entries are 0 and Add (decision D10); no step depends on them. -/
def controlUnit (func : BitVec 6) : Ctl :=
  if func = funcAdd then ctlRow true false false false false .add false false true
  else if func = funcSub then ctlRow true false false false false .sub false false true
  else if func = funcLw then ctlRow false false false true true .add false true true
  else if func = funcSw then ctlRow false false false false false .add true true false
  else if func = funcBeq then ctlRow false false true false false .sub false false false
  else if func = funcAddi then ctlRow false false false false false .add false true true
  else if func = funcJ then ctlRow false true false false false .add false false false
  else ctlInert

/-- The 1-bit encoding of ALUOp: Add = 0, Sub = 1 (R92, decision D11). -/
def AluOp.bit : AluOp → BitVec 1
  | .add => 0#1
  | .sub => 1#1

end Sys2Proof.Machine
end

