-- ==== Sys2Proof/Machine/Sequencer.lean ====
section
/-! DEFINITION. The control sequencer: the six sub-stages of one step and its commit (40_datapath.md R120 to R132),
driven by the control vector alone. `step` runs an instruction's own meaning as one atomic transition (R133); this
file is the same step as the spec's datapath makes it. -/

namespace Sys2Proof.Machine

/-! ## The per-step record, sub-stage by sub-stage -/

/-- The record at the start of an instruction: made anew (10_state.md R34). -/
def Scratch.start (pc : Word) : Scratch := { Scratch.blank with pc := pc }

/-- FETCH (R121). -/
def Scratch.fetched (r : Scratch) (ir : Word) : Scratch :=
  { r with ir := ir, pcPlus4 := pcPlusFour r.pc }

/-- DECODE (R122): every field, whatever the func (30_encoding.md R84). -/
def Scratch.decoded (r : Scratch) : Scratch :=
  { r with
    func := fieldFunc r.ir
    rs := fieldRs r.ir
    rt := fieldRt r.ir
    rd := fieldRd r.ir
    imm16 := fieldImm16 r.ir
    simm := signExtImm (fieldImm16 r.ir)
    jimm26 := fieldJimm26 r.ir }

/-- REGREAD (R123). -/
def Scratch.regRead (r : Scratch) (s : State) : Scratch :=
  { r with
    ctl := controlUnit r.func
    wbIndex := if (controlUnit r.func).regDst then r.rd else r.rt
    rsVal := s.readReg r.rs
    rtVal := s.readReg r.rt
    aluB := if (controlUnit r.func).aluSrc then r.simm else s.readReg r.rt
    jumpTarget := jumpTargetOf r.pcPlus4 r.jimm26
    branchTarget := branchTargetOf r.pcPlus4 r.simm }

/-- EXECUTE (R126). -/
def Scratch.executed (r : Scratch) : Scratch :=
  { r with
    aluResult := (alu r.ctl.aluOp r.rsVal r.aluB).1
    zero := (alu r.ctl.aluOp r.rsVal r.aluB).2 }

/-- Next-PC selection (R129). -/
def Scratch.selectPc (r : Scratch) : Word :=
  if r.ctl.jump then r.jumpTarget
  else if r.ctl.branch && r.zero then r.branchTarget
  else r.pcPlus4

/-- The end of MEMORY (R128): the loaded word, if there is one, and the next pc. -/
def Scratch.memoryDone (r : Scratch) (memData : Option Word) : Scratch :=
  { r with memData := memData, nextPc := r.selectPc }

/-- The write-back value (R130). With MemtoReg and no loaded word there is none; no control row gives that
(log 19). -/
def Scratch.wroteBack (r : Scratch) : Scratch :=
  { r with wbValue := if r.ctl.memToReg then r.memData else some r.aluResult }

/-! ## The sub-stages on the state -/

/-- The load of MEMORY (R128): the loaded word, if MemRead. -/
def loadAccess (r : Scratch) (s : State) : Except FaultCode (Option Word) :=
  if r.ctl.memRead then
    match s.memRead r.aluResult with
    | .error c => .error c
    | .ok v => .ok (some v)
  else .ok none

/-- The store of MEMORY (R128), if MemWrite. -/
def storeAccess (r : Scratch) (s : State) : Except FaultCode State :=
  if r.ctl.memWrite then s.memWrite r.aluResult r.rtVal else .ok s

/-- The data accesses of MEMORY in R128's order; no control row makes both (20_memory.md R65). -/
def dataAccess (r : Scratch) (s : State) : Except FaultCode (Option Word × State) :=
  match loadAccess r s with
  | .error c => .error c
  | .ok memData =>
    match storeAccess r s with
    | .error c => .error c
    | .ok s' => .ok (memData, s')

/-- FETCH; a fetch fault is taken at once, with fault_ir = 0 (60_exceptions.md R182, R183). -/
def stageFetch (s : State) : State :=
  match s.imemRead s.pc with
  | .error c => ({ s with scratch := Scratch.start s.pc }).enterFault c s.pc 0#32
  | .ok ir => { s with scratch := (Scratch.start s.pc).fetched ir, seq := .decode }

/-- DECODE cannot fail (R122). -/
def stageDecode (s : State) : State :=
  { s with scratch := s.scratch.decoded, seq := .regread }

/-- REGREAD cannot fail (R123). -/
def stageRegread (s : State) : State :=
  { s with scratch := s.scratch.regRead s, seq := .execute }

/-- EXECUTE cannot fail and touches neither memory nor registers (R126). -/
def stageExecute (s : State) : State :=
  { s with scratch := s.scratch.executed, seq := .memory }

/-- MEMORY (R128); a data fault is taken at once (60_exceptions.md R183). -/
def stageMemory (s : State) : State :=
  match dataAccess s.scratch s with
  | .error c => s.enterFault c s.scratch.aluResult s.scratch.ir
  | .ok (memData, s') => { s' with scratch := s.scratch.memoryDone memData, seq := .writeback }

/-- The register write of WRITEBACK (R130). -/
def writeBack (r : Scratch) (s : State) : State :=
  if r.ctl.regWrite then
    match r.wbValue with
    | some v => s.writeReg r.wbIndex v
    | none => s
  else s

/-- WRITEBACK and the commit (R130, R131). -/
def stageWriteback (s : State) : State :=
  (writeBack s.scratch.wroteBack { s with scratch := s.scratch.wroteBack }).commit s.scratch.nextPc

/-- One sub-stage (R120): `none` where the sequencer is in RESET or stopped and nothing executes. -/
def stage (s : State) : Option State :=
  match s.seq with
  | .fetch => some (stageFetch s)
  | .decode => some (stageDecode s)
  | .regread => some (stageRegread s)
  | .execute => some (stageExecute s)
  | .memory => some (stageMemory s)
  | .writeback => some (stageWriteback s)
  | .reset | .haltedSentinel | .haltedLoop | .faulted | .stoppedLimit => none

/-- A step is under way: an instruction is fetched and not yet committed. -/
def Seq.midStep : Seq → Bool
  | .decode | .regread | .execute | .memory | .writeback => true
  | .reset | .fetch | .haltedSentinel | .haltedLoop | .faulted | .stoppedLimit => false

/-- Run sub-stages until the instruction under way commits or faults, at most `n` of them. -/
def finishStep : Nat → State → State
  | 0, s => s
  | n + 1, s =>
    if s.seq.midStep then
      match stage s with
      | some s' => finishStep n s'
      | none => s
    else s

/-- The whole step through the six sub-stages (R120). -/
def sequencedStep (s : State) : State := finishStep 5 (stageFetch s)

/-- The record a step leaves when the word `ir` is fetched in state `s` (60_exceptions.md R193): up to EXECUTE if
the data access faults, complete otherwise. -/
def stepRecord (s : State) (ir : Word) : Scratch :=
  let r := ((((Scratch.start s.pc).fetched ir).decoded).regRead s).executed
  match dataAccess r s with
  | .error _ => r
  | .ok (memData, _) => (r.memoryDone memData).wroteBack

end Sys2Proof.Machine
end

