-- ==== Sys2Proof/Machine/Fetch.lean ====
section
/-! DEFINITION. One whole instruction from FETCH, as one atomic transition (40_datapath.md R121, R133). -/

namespace Sys2Proof.Machine

/-- Run a fetched word: its instruction, or the no-op of an unrecognized func (44_reserved_noop.md R171). -/
def runWord (ir : Word) (s : State) : Host.Outcome State Fault Refusal :=
  match decode ir with
  | .ok i => exec i s
  | .error _ => execUnrecognized s

/-- Fetch the word at pc and run it. A fetch fault is taken at once with fault_ir = 0 (60_exceptions.md R182,
R183); otherwise the per-step record is written (10_state.md R34) and the word runs. -/
def stepInstr (s : State) : Host.Outcome State Fault Refusal :=
  match s.imemRead s.pc with
  | .error c => .next (({ s with scratch := Scratch.start s.pc }).enterFault c s.pc 0#32)
  | .ok ir => runWord ir { s with scratch := stepRecord s ir }

/-- Put an instruction word where the next fetch reads it: at pc in instruction memory, big-endian
(20_memory.md R57, R67), the sequencer in FETCH. -/
def State.placeWord (s : State) (w : Word) : State :=
  { s with imem := s.imem.writeWord s.pc.toNat w, seq := .fetch }

end Sys2Proof.Machine
end

