-- ==== Sys2Proof/Machine/Step.lean ====
section
/-! DEFINITION. One step of the machine (40_datapath.md R120, R133), and the host's way to place one word. -/

namespace Sys2Proof.Machine

/-- One step. In FETCH it is one whole instruction as one atomic transition (R133). In a sub-stage state the
instruction under way runs to its end (log 8). In RESET and in a stop state no step is enabled (60_exceptions.md
R186, log 7). -/
def step (s : State) : Host.Outcome State Fault Refusal :=
  match s.seq with
  | .fetch => stepInstr s
  | .decode | .regread | .execute | .memory | .writeback => .next (finishStep 5 s)
  | .reset => .fault .resetAsserted
  | .haltedSentinel => .fault .haltedSentinel
  | .haltedLoop => .fault .haltedLoop
  | .faulted => .fault .faulted
  | .stoppedLimit => .fault .stoppedLimit

/-- `s` with an instruction placed where `step` fetches next: the low `nbits` bits of `w`, 0 above them (log 6). -/
def State.withFetchWord (s : State) (nbits w : Nat) : State :=
  s.placeWord (BitVec.ofNat 32 (w % 2 ^ nbits))

end Sys2Proof.Machine
end

