-- ==== Sys2Proof/Machine/Codec.lean ====
section
/-! DEFINITION. The codec on operand lists (30_encoding.md R99 to R105). It gives no meaning to a word (00_scope.md
R8). -/

namespace Sys2Proof.Machine

/-- Why a line is skipped (R99 to R102; decisions D27, D28). None is a fault of the core (60_exceptions.md R188). -/
inductive AsmError where
  | unrecognizedMnemonic
  | wrongOperandCount
  | badRegister
  /-- An immediate that is no signed decimal: the model's own reason, DESIGN CHOICE (log 22). -/
  | badImmediate
  deriving DecidableEq, Repr

/-- A register operand must be 0 to 31 (R101). -/
def regOperand (n : Int) : Except AsmError RegIx :=
  if regLegal n then .ok (BitVec.ofInt 5 n) else .error .badRegister

/-- Two register operands, in textual order. -/
def regOperands2 (a b : Int) : Except AsmError (RegIx × RegIx) :=
  match regOperand a, regOperand b with
  | .ok x, .ok y => .ok (x, y)
  | .error e, _ => .error e
  | _, .error e => .error e

/-- The operands of an R-type line, (Rd, Rs, Rt) (R100). -/
def rOperands : List Int → Except AsmError (RegIx × RegIx × RegIx)
  | [a, b, c] =>
    match regOperands2 a b, regOperand c with
    | .ok (rd, rs), .ok rt => .ok (rd, rs, rt)
    | .error e, _ => .error e
    | _, .error e => .error e
  | _ => .error .wrongOperandCount

/-- The operands of an I-type line, (Rt, Rs, Imm); Imm is silently truncated to 16 bits (R100, R102). -/
def iOperands : List Int → Except AsmError (RegIx × RegIx × BitVec 16)
  | [a, b, n] =>
    match regOperands2 a b with
    | .ok (rt, rs) => .ok (rt, rs, BitVec.ofInt 16 n)
    | .error e => .error e
  | _ => .error .wrongOperandCount

/-- The operand of a J line, silently truncated to 26 bits (R100, R102). -/
def jOperands : List Int → Except AsmError (BitVec 26)
  | [n] => .ok (BitVec.ofInt 26 n)
  | _ => .error .wrongOperandCount

/-- An R-type instruction from its operands. -/
def ofROperands (mk : RegIx → RegIx → RegIx → Instr) (ops : List Int) : Except AsmError Instr :=
  match rOperands ops with
  | .ok (rd, rs, rt) => .ok (mk rd rs rt)
  | .error e => .error e

/-- An I-type instruction from its operands. -/
def ofIOperands (mk : RegIx → RegIx → BitVec 16 → Instr) (ops : List Int) : Except AsmError Instr :=
  match iOperands ops with
  | .ok (rt, rs, imm) => .ok (mk rt rs imm)
  | .error e => .error e

/-- The instruction of a mnemonic and its operands (R100). -/
def instrOfOp (o : AsmOp) : Except AsmError Instr :=
  match o.mnemonic with
  | .add => ofROperands .add o.ops
  | .sub => ofROperands .sub o.ops
  | .addi => ofIOperands .addi o.ops
  | .lw => ofIOperands .lw o.ops
  | .sw => ofIOperands .sw o.ops
  | .beq => ofIOperands .beq o.ops
  | .j =>
    match jOperands o.ops with
    | .ok imm => .ok (.j imm)
    | .error e => .error e

/-- Codec encode (R99 to R103). -/
def encodeOp (o : AsmOp) : Except AsmError Word :=
  match instrOfOp o with
  | .ok i => .ok (encode i)
  | .error e => .error e

/-- What codec decode answers (R104). -/
inductive Verdict where
  | op (o : AsmOp)
  | unknown (func : BitVec 6)
  deriving DecidableEq, Repr

/-- A register field as an operand. -/
def regInt (r : RegIx) : Int := (r.toNat : Int)

/-- An instruction's mnemonic and operands in textual order, immediates sign-extended (R86, R104); LWR has no
mnemonic in the codec's table (R99). -/
def opOfInstr : Instr → Option AsmOp
  | .add rd rs rt => some ⟨.add, [regInt rd, regInt rs, regInt rt]⟩
  | .sub rd rs rt => some ⟨.sub, [regInt rd, regInt rs, regInt rt]⟩
  | .lwr => none
  | .addi rt rs imm => some ⟨.addi, [regInt rt, regInt rs, imm.toInt]⟩
  | .lw rt rs imm => some ⟨.lw, [regInt rt, regInt rs, imm.toInt]⟩
  | .sw rt rs imm => some ⟨.sw, [regInt rt, regInt rs, imm.toInt]⟩
  | .beq rt rs imm => some ⟨.beq, [regInt rt, regInt rs, imm.toInt]⟩
  | .j imm => some ⟨.j, [imm.toInt]⟩

/-- Codec decode: total over all words; Unknown(func) for LWR and every unassigned func (R104, decision D29). -/
def decodeOp (w : Word) : Verdict :=
  match decode w with
  | .ok i =>
    match opOfInstr i with
    | some o => .op o
    | none => .unknown (fieldFunc w)
  | .error _ => .unknown (fieldFunc w)

end Sys2Proof.Machine
end

