-- ==== Sys2Proof/Machine/Assembler.lean ====
section
/-! DEFINITION. The assembler's text form (30_encoding.md R97 to R102, R106). Text is a list of characters. -/

namespace Sys2Proof.Machine

/-- Trim surrounding whitespace (R98): space, tab, carriage return and line feed, DESIGN CHOICE (log 13). -/
def trim (cs : List Char) : List Char :=
  ((cs.dropWhile Char.isWhitespace).reverse.dropWhile Char.isWhitespace).reverse

/-- Split at commas (R97). -/
def splitCommas : List Char → List (List Char)
  | [] => [[]]
  | c :: cs =>
    if c = ',' then [] :: splitCommas cs
    else
      match splitCommas cs with
      | [] => [[c]]
      | t :: ts => (c :: t) :: ts

/-- Case-insensitive lookup in the fixed opcode table; LWR is not in it (R99). -/
def lookupMnemonic (token : List Char) : Option Mnemonic :=
  let up := token.map Char.toUpper
  if up = "ADD".toList then some .add
  else if up = "SUB".toList then some .sub
  else if up = "ADDI".toList then some .addi
  else if up = "LW".toList then some .lw
  else if up = "SW".toList then some .sw
  else if up = "BEQ".toList then some .beq
  else if up = "J".toList then some .j
  else none

/-- The value of decimal digits read so far and to come. -/
def decimalFrom : Nat → List Char → Option Nat
  | acc, [] => some acc
  | acc, c :: cs =>
    if c.isDigit then decimalFrom (10 * acc + (c.toNat - '0'.toNat)) cs else none

/-- A nonempty run of decimal digits. -/
def parseDecimal : List Char → Option Nat
  | [] => none
  | c :: cs => decimalFrom 0 (c :: cs)

/-- Strip the leading run of the markers `$` and `s` (R101, decision D27). -/
def stripMarkers (cs : List Char) : List Char :=
  cs.dropWhile (fun c => c == '$' || c == 's')

/-- A register operand's text (R101). -/
def parseRegister (token : List Char) : Except AsmError Int :=
  match parseDecimal (stripMarkers token) with
  | some n => .ok (n : Int)
  | none => .error .badRegister

/-- An immediate operand's text: decimal with an optional sign (R102, decision D28). The spec does not say what becomes
of a line whose immediate is anything else: the model skips it, as R101 skips a bad register. DESIGN CHOICE (log 22). -/
def parseImmediate (token : List Char) : Except AsmError Int :=
  match token with
  | '-' :: ds =>
    match parseDecimal ds with
    | some n => .ok (-(n : Int))
    | none => .error .badImmediate
  | '+' :: ds =>
    match parseDecimal ds with
    | some n => .ok (n : Int)
    | none => .error .badImmediate
  | ds =>
    match parseDecimal ds with
    | some n => .ok (n : Int)
    | none => .error .badImmediate

/-- Three operands, each read in its own way. -/
def parseThree (f g h : List Char → Except AsmError Int) : List (List Char) → Except AsmError (List Int)
  | [a, b, c] =>
    match f a, g b, h c with
    | .ok x, .ok y, .ok z => .ok [x, y, z]
    | .error e, _, _ => .error e
    | _, .error e, _ => .error e
    | _, _, .error e => .error e
  | _ => .error .wrongOperandCount

/-- The operands of a line, in the number its format takes (R97, R100, 90_conflicts.md C1). -/
def parseOperands (f : Format) (tokens : List (List Char)) : Except AsmError (List Int) :=
  match f with
  | .r => parseThree parseRegister parseRegister parseRegister tokens
  | .i => parseThree parseRegister parseRegister parseImmediate tokens
  | .j =>
    match tokens with
    | [a] =>
      match parseImmediate a with
      | .ok n => .ok [n]
      | .error e => .error e
    | _ => .error .wrongOperandCount

/-- What comes of one line: ignored by the surrounding collaborator, skipped with its reason, or one word. -/
inductive LineResult where
  | ignored
  | skipped (why : AsmError)
  | word (w : Word)
  deriving DecidableEq, Repr

/-- The word of an instruction line (R97 to R103). -/
def encodeLine (line : List Char) : Except AsmError Word :=
  match (splitCommas line).map trim with
  | [] => .error .unrecognizedMnemonic
  | token :: operands =>
    match lookupMnemonic token with
    | none => .error .unrecognizedMnemonic
    | some m =>
      match parseOperands m.format operands with
      | .error e => .error e
      | .ok ops => encodeOp ⟨m, ops⟩

/-- A line that begins with `#` after leading whitespace, or that is only a line terminator (R98). Which strings are
only a line terminator is the model's: nothing, LF, or CR LF, and not CR alone. DESIGN CHOICE (log 21). -/
def ignoredLine (line : List Char) : Bool :=
  (line.dropWhile Char.isWhitespace).head? == some '#' || line == [] || line == ['\n'] || line == ['\r', '\n']

/-- One line (R98, R99). -/
def assembleLine (line : List Char) : LineResult :=
  if ignoredLine line then .ignored
  else
    match encodeLine line with
    | .ok w => .word w
    | .error e => .skipped e

/-- The words of a text's lines: a bad line is skipped and the next one read, never fatal (R99, 60_exceptions.md
R188). -/
def assemble : List (List Char) → List Word
  | [] => []
  | line :: lines =>
    match assembleLine line with
    | .word w => w :: assemble lines
    | .ignored | .skipped _ => assemble lines

end Sys2Proof.Machine
end

