-- ==== Sys2Proof/Machine/HostPort.lean ====
section
/-! DEFINITION. What the host may do (70_reset_and_hazards.md R200 to R204): assert reset, prepare a run and release
reset, read the core when it has stopped. None of this is part of `step` (log 16). -/

namespace Sys2Proof.Machine

/-- The stop states (10_state.md R33): terminal until reset (60_exceptions.md R186). -/
def Seq.stopped : Seq → Bool
  | .haltedSentinel | .haltedLoop | .faulted | .stoppedLimit => true
  | .reset | .fetch | .decode | .regread | .execute | .memory | .writeback => false

/-- Assert reset: from any state, abandoning any step in progress (R200). The fault record is cleared, since
fault_code is NONE outside FAULTED (10_state.md R35); DEDUCED (log 15). -/
def State.assertReset (s : State) : State :=
  { s with seq := .reset, fault := FaultRecord.cleared, scratch := Scratch.blank }

/-- What the host supplies while reset is asserted (R202): the configuration, the program's words, x[1..31]
(`initRegs` holds x[k + 1] at k), the contents of DMEM, and the bytes of IMEM under the program. -/
structure Setup where
  config   : Config
  program  : List Word
  initRegs : Vector Word 31
  initDmem : Memory
  imemInit : Memory
  deriving DecidableEq, Repr

/-- What the host must keep to: R7's constraints (R203), a program no longer than IMEM_BYTES / 4 words (20_memory.md
R67), and memory contents that are bytes of the memories. -/
def Setup.wf (p : Setup) : Bool :=
  p.config.wf && decide (4 * p.program.length ≤ p.config.imemBytes) &&
    (p.initDmem.wf && p.initDmem.within p.config.dmemBytes) &&
    (p.imemInit.wf && p.imemInit.within p.config.imemBytes)

/-- Words loaded from byte offset `a` on, 4 bytes a word, order kept (20_memory.md R67). -/
def loadWords : Memory → Nat → List Word → Memory
  | m, _, [] => m
  | m, a, w :: ws => loadWords (m.writeWord a w) (a + 4) ws

/-- x[0] = 0 and x[1..31] as supplied (10_state.md R38). -/
def regsAtReset (initRegs : Vector Word 31) : Vector Word 32 :=
  Vector.ofFn fun k : Fin 32 => if h : k.val = 0 then 0#32 else initRegs[k.val - 1]

/-- Every piece of state when reset is released (10_state.md R38). -/
def State.released (p : Setup) : State where
  config := p.config
  regs := regsAtReset p.initRegs
  pc := 0#32
  imem := loadWords p.imemInit 0 p.program
  dmem := p.initDmem
  seq := .fetch
  fault := FaultRecord.cleared
  icount := 0#64
  scratch := Scratch.blank

/-- Release reset: only while it is asserted, and only with a legal setup; otherwise reset is not released
(R200, R202, decision D30). -/
def State.releaseReset (s : State) (p : Setup) : Option State :=
  if s.seq = .reset ∧ p.wf = true then some (State.released p) else none

/-- The finished snapshot the host reads (R203, R204); the fault record only for FAULTED. -/
structure Snapshot where
  regs   : Vector Word 32
  imem   : Memory
  dmem   : Memory
  pc     : Word
  icount : BitVec 64
  seq    : Seq
  fault  : Option FaultRecord
  deriving DecidableEq, Repr

/-- The host reads only in a stop state (R203, decision D25). -/
def State.snapshot (s : State) : Option Snapshot :=
  if s.seq.stopped then
    some
      { regs := s.regs
        imem := s.imem
        dmem := s.dmem
        pc := s.pc
        icount := s.icount
        seq := s.seq
        fault := if s.seq = .faulted then some s.fault else none }
  else none

/-- The setup `State.reset` stands for (logs 2 to 5). -/
def Setup.initial : Setup where
  config := Config.initial
  program := []
  initRegs := Vector.replicate 31 0#32
  initDmem := ⟨[]⟩
  imemInit := ⟨[]⟩

end Sys2Proof.Machine
end

