-- ==== Sys2Proof/Machine/WordFile.lean ====
section
/-! DEFINITION. The binary word file (20_memory.md R67): one line of exactly 8 lowercase hexadecimal digits for each
word, newline-terminated. Text is a list of characters. -/

namespace Sys2Proof.Machine

/-- Why the loader rejects a file (R67, decision D30). Reset is then not released. The two names, and that
a malformed line is reported first, are the model's own: DESIGN CHOICE (log 14). -/
inductive LoadError where
  /-- A line is not exactly 8 lowercase hex digits and a newline. -/
  | malformedLine
  /-- More than IMEM_BYTES / 4 lines. -/
  | tooLong
  deriving DecidableEq, Repr

/-- One lowercase hexadecimal digit. -/
def hexDigit (c : Char) : Option Nat :=
  if '0' ≤ c ∧ c ≤ '9' then some (c.toNat - '0'.toNat)
  else if 'a' ≤ c ∧ c ≤ 'f' then some (c.toNat - 'a'.toNat + 10)
  else none

/-- The digits of a line read with the first digit as bits 31:28. -/
def hexValue : Nat → List Char → Option Nat
  | acc, [] => some acc
  | acc, c :: cs =>
    match hexDigit c with
    | some d => hexValue (16 * acc + d) cs
    | none => none

/-- The word of one line. -/
def wordOfLine (line : List Char) : Option Word :=
  if line.length = 8 then
    match hexValue 0 line with
    | some n => some (BitVec.ofNat 32 n)
    | none => none
  else none

/-- The words of a text; `line` holds the characters of the current line, last one first. -/
def wordsOfText : List Char → List Char → Option (List Word)
  | [], [] => some []
  | _ :: _, [] => none
  | line, c :: cs =>
    if c = '\n' then
      match wordOfLine line.reverse, wordsOfText [] cs with
      | some w, some ws => some (w :: ws)
      | _, _ => none
    else wordsOfText (c :: line) cs

/-- The program of a word file for a core of the given configuration (R67). -/
def parseWordFile (c : Config) (text : List Char) : Except LoadError (List Word) :=
  match wordsOfText [] text with
  | none => .error .malformedLine
  | some ws => if 4 * ws.length ≤ c.imemBytes then .ok ws else .error .tooLong

/-- The lowercase digit of a value below 16. -/
def digitOf (n : Nat) : Char :=
  if n < 10 then Char.ofNat ('0'.toNat + n) else Char.ofNat ('a'.toNat + (n - 10))

/-- The line of a word, newline included. -/
def lineOfWord (w : Word) : List Char :=
  [digitOf (w.toNat / 2 ^ 28 % 16), digitOf (w.toNat / 2 ^ 24 % 16), digitOf (w.toNat / 2 ^ 20 % 16),
    digitOf (w.toNat / 2 ^ 16 % 16), digitOf (w.toNat / 2 ^ 12 % 16), digitOf (w.toNat / 2 ^ 8 % 16),
    digitOf (w.toNat / 2 ^ 4 % 16), digitOf (w.toNat % 16), '\n']

/-- The word file of a program. -/
def textOfWords (ws : List Word) : List Char := ws.flatMap lineOfWord

end Sys2Proof.Machine
end

