-- ==== Sys2Proof/Machine/Ports.lean ====
section
/-! DEFINITION. The core's interfaces as functions of its state: the register file's ports (10_state.md R23), the
memory interfaces (20_memory.md R64, R65) and the per-step record the host reads (60_exceptions.md R193). A signal is
`none` where the spec gives it no value: outside its sub-stage, and read data of an access that faults or is not made
(DESIGN CHOICE, log 17). -/

namespace Sys2Proof.Machine

/-- A fault as the 2-bit signal of the interfaces: 0 none, 1 misaligned, 2 out of range (R64, R65). -/
def faultSignal : Option FaultCode → BitVec 2
  | none | some .none => 0#2
  | some .fetchMisaligned | some .loadMisaligned | some .storeMisaligned => 1#2
  | some .fetchOutOfRange | some .loadOutOfRange | some .storeOutOfRange => 2#2

/-- The word an access gives when it does not fault. The spec gives the read data no value on a fault: none, DESIGN
CHOICE (log 17). -/
def readData : Except FaultCode Word → Option Word
  | .ok v => some v
  | .error _ => none

/-- The instruction-memory interface (R64). -/
structure ImemPort where
  addr  : Option Word
  req   : Bool
  rdata : Option Word
  fault : BitVec 2
  deriving DecidableEq, Repr

/-- i_req is 1 in FETCH only, where i_addr is pc (R64). On a fetch fault i_rdata is none, DESIGN CHOICE (log 17). -/
def State.imemPort (s : State) : ImemPort :=
  if s.seq = .fetch then
    ⟨some s.pc, true, readData (s.imemRead s.pc), faultSignal (accessFault .fetch s.config.imemBytes s.pc)⟩
  else ⟨none, false, none, 0#2⟩

/-- The data-memory interface (R65). -/
structure DmemPort where
  addr  : Option Word
  re    : Bool
  we    : Bool
  wdata : Option Word
  rdata : Option Word
  fault : BitVec 2
  deriving DecidableEq, Repr

/-- d_re and d_we follow the control vector in MEMORY only; with both 0 d_addr is not checked (R65). d_rdata is
none with d_re = 0 and on a load that faults, DESIGN CHOICE (log 17). -/
def State.dmemPort (s : State) : DmemPort :=
  if s.seq = .memory then
    { addr := some s.scratch.aluResult
      re := s.scratch.ctl.memRead
      we := s.scratch.ctl.memWrite
      wdata := some s.scratch.rtVal
      rdata := if s.scratch.ctl.memRead then readData (s.memRead s.scratch.aluResult) else none
      fault :=
        if s.scratch.ctl.memRead then faultSignal (accessFault .load s.config.dmemBytes s.scratch.aluResult)
        else if s.scratch.ctl.memWrite then faultSignal (accessFault .store s.config.dmemBytes s.scratch.aluResult)
        else 0#2 }
  else ⟨none, false, false, none, none, 0#2⟩

/-- The register file's two read ports and its write port (10_state.md R23). -/
structure RegPorts where
  readAddr1  : Option RegIx
  readData1  : Option Word
  readAddr2  : Option RegIx
  readData2  : Option Word
  writeAddr  : Option RegIx
  writeData  : Option Word
  writeEnable : Bool
  deriving DecidableEq, Repr

/-- The read ports are used in REGREAD, the write port in WRITEBACK (R23). -/
def State.regPorts (s : State) : RegPorts :=
  if s.seq = .regread then
    ⟨some s.scratch.rs, some (s.readReg s.scratch.rs), some s.scratch.rt, some (s.readReg s.scratch.rt), none, none,
      false⟩
  else if s.seq = .writeback then
    ⟨none, none, none, none, some s.scratch.wbIndex, s.scratch.wroteBack.wbValue, s.scratch.ctl.regWrite⟩
  else ⟨none, none, none, none, none, none, false⟩

/-- The content of the trace of one completed step (R193); `none` where a value is not used by the instruction, and
for the mnemonic of a func outside the codec's table (Unknown). -/
structure TraceRecord where
  pc           : Word
  ir           : Word
  func         : BitVec 6
  mnemonic     : Option Mnemonic
  rs           : RegIx
  rt           : RegIx
  rd           : RegIx
  imm16        : BitVec 16
  simm         : Word
  jimm26       : BitVec 26
  ctl          : Ctl
  rsVal        : Word
  rtVal        : Word
  aluB         : Word
  aluResult    : Word
  zero         : Bool
  dataAddr     : Option Word
  memData      : Option Word
  wbIndex      : Option RegIx
  wbValue      : Option Word
  branchTarget : Option Word
  jumpTarget   : Option Word
  nextPc       : Word
  deriving DecidableEq, Repr

/-- A value that is part of the record when it is used. -/
def whenUsed {α : Type} (used : Bool) (v : α) : Option α := if used then some v else none

/-- The mnemonic of a word, where the codec knows it (R104). -/
def mnemonicOf (ir : Word) : Option Mnemonic :=
  match decodeOp ir with
  | .op o => some o.mnemonic
  | .unknown _ => none

/-- The trace content of a per-step record (R193). What counts as used is DEDUCED from the control signals (log 20). -/
def Scratch.trace (r : Scratch) : TraceRecord where
  pc := r.pc
  ir := r.ir
  func := r.func
  mnemonic := mnemonicOf r.ir
  rs := r.rs
  rt := r.rt
  rd := r.rd
  imm16 := r.imm16
  simm := r.simm
  jimm26 := r.jimm26
  ctl := r.ctl
  rsVal := r.rsVal
  rtVal := r.rtVal
  aluB := r.aluB
  aluResult := r.aluResult
  zero := r.zero
  dataAddr := whenUsed (r.ctl.memRead || r.ctl.memWrite) r.aluResult
  memData := r.memData
  wbIndex := whenUsed r.ctl.regWrite r.wbIndex
  wbValue := if r.ctl.regWrite then r.wbValue else none
  branchTarget := whenUsed r.ctl.branch r.branchTarget
  jumpTarget := whenUsed r.ctl.jump r.jumpTarget
  nextPc := r.nextPc

/-- A step was completed and not faulted: between steps or halted, with a complete record. -/
def State.completedStep (s : State) : Bool :=
  !s.seq.midStep && s.seq != .reset && s.seq != .faulted && s.scratch.wbValue.isSome

/-- The record the core exposes after a completed step (R193); none before the first step and after a fault. -/
def State.traceRecord (s : State) : Option TraceRecord :=
  whenUsed s.completedStep s.scratch.trace

end Sys2Proof.Machine
end

