-- ==== Sys2Proof/Safety.lean ====
section
/-! DEFINITION. What holds between the steps of every run, and what counts as a safe run, in the terms the claims
use. -/

namespace Sys2Proof.Machine

/-- What each sequencer state says of the rest of the state (10_state.md R28, R33, R35; 40_datapath.md R132;
60_exceptions.md R182; 70_reset_and_hazards.md R204). It is false in RESET and inside a step. -/
def State.seqCoherent (s : State) : Bool :=
  match s.seq with
  | .fetch =>
    decide (s.pc < s.config.sentinel) && decide (s.pc = 0#32 → s.icount = 0#64) && s.fault.code == .none
  | .haltedSentinel => decide (s.config.sentinel ≤ s.pc) && s.fault.code == .none
  | .haltedLoop => s.pc == 0#32 && s.fault.code == .none
  | .stoppedLimit =>
    decide (s.pc < s.config.sentinel) && s.pc != 0#32 && limitReached s.config s.icount && s.fault.code == .none
  | .faulted =>
    s.fault.code != .none && s.fault.code != .fetchMisaligned && s.fault.pc == s.pc
  | .reset | .decode | .regread | .execute | .memory | .writeback => false

/-- The invariant of a run: a legal configuration (00_scope.md R7), x[0] = 0 (10_state.md R21), pc a multiple of 4
(R27), both memories in canonical form and inside their capacities, and the sequencer state coherent with pc, icount
and the fault record. -/
abbrev State.Inv (s : State) : Prop :=
  s.config.wf = true ∧
  s.readReg 0#5 = 0#32 ∧
  wordAligned s.pc = true ∧
  (s.imem.wf = true ∧ s.imem.within s.config.imemBytes = true) ∧
  (s.dmem.wf = true ∧ s.dmem.within s.config.dmemBytes = true) ∧
  s.seqCoherent = true

/-- The states of a run: reset released on a legal setup, with any program, register and memory contents
(70_reset_and_hazards.md R200, R202), and every state a step leads to. -/
inductive Reachable : State → Prop where
  | released (p : Setup) (h : p.wf = true) : Reachable (State.released p)
  | step (s t : State) (hs : Reachable s) (h : step s = .next t) : Reachable t

/-! ## Frames -/

/-- Every register keeps its value. -/
def RegsKept (s t : State) : Prop := ∀ r : RegIx, t.readReg r = s.readReg r

/-- Every register but `d` keeps its value, and register 0 keeps it in any case (10_state.md R21, R24). -/
def RegsKeptBut (d : RegIx) (s t : State) : Prop :=
  ∀ r : RegIx, r ≠ d ∨ r = 0#5 → t.readReg r = s.readReg r

/-- Every byte of data memory keeps its value. -/
def DmemKept (s t : State) : Prop := ∀ a : Nat, t.dmem.read a = s.dmem.read a

/-- Every byte of data memory outside the word at `a` keeps its value (20_memory.md R60). -/
def DmemKeptOutside (a : Nat) (s t : State) : Prop :=
  ∀ b : Nat, b < a ∨ a + 4 ≤ b → t.dmem.read b = s.dmem.read b

/-- A step that completed with `nextPc` (40_datapath.md R131): pc, icount and seq as the commit leaves them, and
instruction memory, configuration, fault record and per-step record as they were. Registers and data memory are left
to the claim. -/
def Completed (s t : State) (nextPc : Word) : Prop :=
  t.pc = nextPc ∧ t.icount = s.icount + 1#64 ∧
  t.seq = terminationSeq s.config nextPc (s.icount + 1#64) ∧
  t.config = s.config ∧ t.imem = s.imem ∧ t.fault = s.fault ∧ t.scratch = s.scratch

/-- A fault taken (60_exceptions.md R182, R183): FAULTED and the fault record, and nothing else changed. -/
def FaultTaken (s t : State) (code : FaultCode) (addr ir : Word) : Prop :=
  t.seq = .faulted ∧ t.fault = ⟨code, s.pc, addr, ir⟩ ∧
  t.pc = s.pc ∧ RegsKept s t ∧ DmemKept s t ∧ t.icount = s.icount ∧
  t.config = s.config ∧ t.imem = s.imem ∧ t.scratch = s.scratch

/-- The register an instruction writes (10_state.md R24). -/
def destination : Instr → Option RegIx
  | .add rd _ _ | .sub rd _ _ => some rd
  | .addi rt _ _ | .lw rt _ _ => some rt
  | .sw .. | .beq .. | .j .. | .lwr => none

/-- The state a step answers, if it answers one. -/
def nextState? : Host.Outcome State Fault Refusal → Option State
  | .next s => some s
  | .fault _ => none
  | .refused _ => none

/-- The core has not taken a fault (60_exceptions.md R183). -/
def State.faultFree (s : State) : Bool := s.seq != .faulted

/-- A data address LW or SW can use in this configuration (20_memory.md R54, R55). -/
def State.dataAddrOk (s : State) (a : Word) : Bool :=
  wordAligned a && inRange s.config.dmemBytes a

/-- A program counter the next fetch can use (R54, R55). -/
def State.fetchOk (s : State) : Bool :=
  wordAligned s.pc && inRange s.config.imemBytes s.pc

end Sys2Proof.Machine
end

