-- ==== Sys2Proof/Certificates/Slice0/Obligations.lean ====
section
/-! DEFINITION. The statements for the provers, in the order of the spec's files. OBLIGATIONS.json lists them. -/

open Sys2Proof
open Sys2Proof.Machine

/-! ## Encoding, decoder and codec (30_encoding.md) -/

/-- Every instruction, with every operand at every value its field admits, decodes from its own word (R81 to R84,
R103). For LWR the 26 open bits of the word are the model's choice (log 11). -/
def Obligations.DecodeEncodeRoundTrip : Prop :=
  ∀ i : Instr, decode (encode i) = .ok i

/-- What encoding a decoded word gives back: the word itself, less the unused bits of an R-type word and, by the
model's choice (log 11), the open bits of LWR. -/
def Obligations.EncodeDecodeClearsUnusedBits : Prop :=
  ∀ (w : Word) (i : Instr), decode w = .ok i →
    encode i =
      match i with
      | .add .. | .sub .. => w &&& 0xFFFFF800#32
      | .lwr => w &&& 0xFC000000#32
      | .addi .. | .lw .. | .sw .. | .beq .. | .j .. => w

/-- R84: DECODE extracts the seven values of every word by shift and mask, whatever its func. -/
def Obligations.FieldExtraction : Prop :=
  ∀ s : State,
    let w := s.scratch.ir
    let r := (stageDecode s).scratch
    r.func.toNat = w.toNat / 2 ^ 26 ∧
    r.rs.toNat = w.toNat / 2 ^ 21 % 32 ∧
    r.rt.toNat = w.toNat / 2 ^ 16 % 32 ∧
    r.rd.toNat = w.toNat / 2 ^ 11 % 32 ∧
    r.imm16.toNat = w.toNat % 2 ^ 16 ∧
    r.jimm26.toNat = w.toNat % 2 ^ 26 ∧
    r.simm = r.imm16.signExtend 32

/-- R88, R89: func alone decides. One of the eight func values gives the instruction of that func. That the decoder
rejects every other func by name is the model's own choice (log 10): the spec has no illegal encoding, and `step` runs
such a word as the no-op of R171. -/
def Obligations.FuncSelectsInstruction : Prop :=
  ∀ w : Word,
    let known := [0b000000#6, 0b000001#6, 0b000010#6, 0b000101#6, 0b001000#6, 0b001001#6, 0b001100#6, 0b001111#6]
    (fieldFunc w ∈ known → ∃ i : Instr, decode w = .ok i ∧ i.func = fieldFunc w) ∧
    (fieldFunc w ∉ known → decode w = .error (.unrecognizedFunc (fieldFunc w)))

/-- R94: the 11 unused bits of an ADD or SUB word are ignored by the decoder and written 0 by the encoder, and the
other formats have no unused bits. -/
def Obligations.UnusedBitsIgnored : Prop :=
  (∀ (rs rt rd : RegIx) (u : BitVec 11),
    decode (0b000000#6 ++ rs ++ rt ++ rd ++ u : BitVec (6 + 5 + 5 + 5 + 11)) = .ok (.add rd rs rt) ∧
    decode (0b000001#6 ++ rs ++ rt ++ rd ++ u : BitVec (6 + 5 + 5 + 5 + 11)) = .ok (.sub rd rs rt)) ∧
  (∀ rs rt rd : RegIx,
    (encode (.add rd rs rt)).extractLsb' 0 11 = 0#11 ∧ (encode (.sub rd rs rt)).extractLsb' 0 11 = 0#11) ∧
  (∀ (v w : Word) (i : Instr), decode v = .ok i → decode w = .ok i →
    i.func ∈ [0b000101#6, 0b001000#6, 0b001001#6, 0b001100#6, 0b001111#6] → v = w)

/-- R107: the example words decode to the instructions they stand for. -/
def Obligations.ExampleWordsDecode : Prop :=
  decode 0x00221800#32 = .ok (.add 3 1 2) ∧
  decode 0x04222000#32 = .ok (.sub 4 1 2) ∧
  decode 0x1402FFF9#32 = .ok (.addi 2 0 0xFFF9) ∧
  decode 0x20240000#32 = .ok (.lw 4 1 0) ∧
  decode 0x24430000#32 = .ok (.sw 3 2 0) ∧
  decode 0x30410004#32 = .ok (.beq 1 2 4) ∧
  decode 0x3C000040#32 = .ok (.j 64)

/-- R103: the word formulas of the encoder, for register operands 0 to 31 and any integer immediate. -/
def Obligations.EncodeWordFormulas : Prop :=
  (∀ (rd rs rt : RegIx),
    (∃ w, encodeOp ⟨.add, [regInt rd, regInt rs, regInt rt]⟩ = .ok w ∧
      w.toNat = (0 <<< 26) ||| (rs.toNat <<< 21) ||| (rt.toNat <<< 16) ||| (rd.toNat <<< 11)) ∧
    (∃ w, encodeOp ⟨.sub, [regInt rd, regInt rs, regInt rt]⟩ = .ok w ∧
      w.toNat = (1 <<< 26) ||| (rs.toNat <<< 21) ||| (rt.toNat <<< 16) ||| (rd.toNat <<< 11))) ∧
  (∀ (m : Mnemonic) (f : Nat), (m, f) ∈ [(Mnemonic.addi, 5), (.lw, 8), (.sw, 9), (.beq, 12)] →
    ∀ (rt rs : RegIx) (n : Int), ∃ w, encodeOp ⟨m, [regInt rt, regInt rs, n]⟩ = .ok w ∧
      w.toNat = (f <<< 26) ||| (rs.toNat <<< 21) ||| (rt.toNat <<< 16) ||| (n % 2 ^ 16).toNat) ∧
  (∀ n : Int, ∃ w, encodeOp ⟨.j, [n]⟩ = .ok w ∧ w.toNat = (15 <<< 26) ||| (n % 2 ^ 26).toNat)

/-- R105: codec decode undoes codec encode on legal operands; an immediate outside its range comes back wrapped to the
field; encode undoes decode but for the unused bits of an R-type word. -/
def Obligations.CodecRoundTrip : Prop :=
  (∀ o : AsmOp, o.legal = true → ∃ w, encodeOp o = .ok w ∧ decodeOp w = .op o) ∧
  (∀ (m : Mnemonic) (rt rs : RegIx) (n : Int), m.format = .i →
    ∃ w, encodeOp ⟨m, [regInt rt, regInt rs, n]⟩ = .ok w ∧
      decodeOp w = .op ⟨m, [regInt rt, regInt rs, n.bmod (2 ^ 16)]⟩) ∧
  (∀ n : Int, ∃ w, encodeOp ⟨.j, [n]⟩ = .ok w ∧ decodeOp w = .op ⟨.j, [n.bmod (2 ^ 26)]⟩) ∧
  (∀ (w : Word) (o : AsmOp), decodeOp w = .op o →
    encodeOp o = .ok (if o.mnemonic.format = .r then w &&& 0xFFFFF800#32 else w))

/-- R104: what codec decode answers for every word, operands in textual order, immediates signed, Unknown(func) for
LWR and every unassigned func (decision D29). -/
def Obligations.CodecDecodeVerdicts : Prop :=
  ∀ w : Word,
    let f := fieldFunc w
    let rOps := [regInt (fieldRd w), regInt (fieldRs w), regInt (fieldRt w)]
    let iOps := [regInt (fieldRt w), regInt (fieldRs w), ((fieldImm16 w).signExtend 32).toInt]
    (f = 0b000000#6 → decodeOp w = .op ⟨.add, rOps⟩) ∧
    (f = 0b000001#6 → decodeOp w = .op ⟨.sub, rOps⟩) ∧
    (f = 0b000101#6 → decodeOp w = .op ⟨.addi, iOps⟩) ∧
    (f = 0b001000#6 → decodeOp w = .op ⟨.lw, iOps⟩) ∧
    (f = 0b001001#6 → decodeOp w = .op ⟨.sw, iOps⟩) ∧
    (f = 0b001100#6 → decodeOp w = .op ⟨.beq, iOps⟩) ∧
    (f = 0b001111#6 → decodeOp w = .op ⟨.j, [((fieldJimm26 w).signExtend 32).toInt]⟩) ∧
    (f ∉ [0b000000#6, 0b000001#6, 0b000101#6, 0b001000#6, 0b001001#6, 0b001100#6, 0b001111#6] →
      decodeOp w = .unknown f)

/-- R99: the lookup is case-insensitive and finds each of the seven mnemonics; a line with any other first token fails
with UnrecognizedMnemonic, is skipped, and the lines after it are assembled as if it were not there. -/
def Obligations.UnrecognizedMnemonicIsSkipped : Prop :=
  let table := ["ADD", "SUB", "ADDI", "LW", "SW", "BEQ", "J"].map String.toList
  (∀ token : List Char, lookupMnemonic token = none ↔ token.map Char.toUpper ∉ table) ∧
  (∀ token : List Char, lookupMnemonic (token.map Char.toUpper) = lookupMnemonic token) ∧
  lookupMnemonic "ADD".toList = some .add ∧ lookupMnemonic "SUB".toList = some .sub ∧
  lookupMnemonic "ADDI".toList = some .addi ∧ lookupMnemonic "LW".toList = some .lw ∧
  lookupMnemonic "SW".toList = some .sw ∧ lookupMnemonic "BEQ".toList = some .beq ∧
  lookupMnemonic "J".toList = some .j ∧
  lookupMnemonic "LWR".toList = none ∧
  (∀ (line : List Char) (before after : List (List Char)) (token : List Char) (operands : List (List Char)),
    (splitCommas line).map trim = token :: operands → token.map Char.toUpper ∉ table → ignoredLine line = false →
    assembleLine line = .skipped .unrecognizedMnemonic ∧
    assemble (before ++ line :: after) = assemble before ++ assemble after)

/-- The control table of R91, row by row in its column order, the inert vector for every other func, and why the
don't-care entries are unobservable: without RegWrite nothing is written back, without MemRead and MemWrite no access
is made, without Branch the ALU does not touch the next pc. -/
def Obligations.ControlTable : Prop :=
  controlUnit 0b000000#6 = ctlRow true false false false false .add false false true ∧
  controlUnit 0b000001#6 = ctlRow true false false false false .sub false false true ∧
  controlUnit 0b001000#6 = ctlRow false false false true true .add false true true ∧
  controlUnit 0b001001#6 = ctlRow false false false false false .add true true false ∧
  controlUnit 0b001100#6 = ctlRow false false true false false .sub false false false ∧
  controlUnit 0b000101#6 = ctlRow false false false false false .add false true true ∧
  controlUnit 0b001111#6 = ctlRow false true false false false .add false false false ∧
  (∀ f : BitVec 6, f ∉ [0b000000#6, 0b000001#6, 0b001000#6, 0b001001#6, 0b001100#6, 0b000101#6, 0b001111#6] →
    controlUnit f = ctlRow false false false false false .add false false false) ∧
  (∀ (r : Scratch) (s : State), r.ctl.regWrite = false → writeBack r s = s) ∧
  (∀ (r : Scratch) (s : State), r.ctl.memRead = false → r.ctl.memWrite = false → dataAccess r s = .ok (none, s)) ∧
  (∀ (r : Scratch) (z : Bool) (a : Word), r.ctl.branch = false →
    ({ r with zero := z, aluResult := a } : Scratch).selectPc = r.selectPc)

/-! ## State (10_state.md) -/

/-- R21: a write to register 0 changes nothing, a write to another register writes that one alone, no instruction
changes x[0], and x[0] is 0 whenever reset is released and in every state of every run. -/
def Obligations.RegisterZeroHardwired : Prop :=
  (∀ (s : State) (v : Word), s.writeReg 0#5 v = s) ∧
  (∀ (s : State) (i : RegIx) (v : Word), i ≠ 0#5 →
    (s.writeReg i v).readReg i = v ∧ ∀ j : RegIx, j ≠ i → (s.writeReg i v).readReg j = s.readReg j) ∧
  (∀ (i : Instr) (s t : State), exec i s = .next t → t.readReg 0#5 = s.readReg 0#5) ∧
  (∀ p : Setup, (State.released p).readReg 0#5 = 0#32) ∧
  (∀ s : State, Reachable s → s.readReg 0#5 = 0#32)

/-- R23, R130: the two read ports give x[rs] and x[rt] in REGREAD; the write port carries wb_index, wb_value (the
loaded word if MemtoReg, else the ALU result) and RegWrite in WRITEBACK, and what it carries is the one register the
stage writes. The registers the ports read are those of the start of the step. -/
def Obligations.RegisterFilePorts : Prop :=
  (∀ s : State, (stageDecode (stageFetch s)).regs = s.regs) ∧
  ∀ s : State,
    (s.seq = .regread →
      s.regPorts.readAddr1 = some s.scratch.rs ∧ s.regPorts.readData1 = some (s.readReg s.scratch.rs) ∧
      s.regPorts.readAddr2 = some s.scratch.rt ∧ s.regPorts.readData2 = some (s.readReg s.scratch.rt)) ∧
    (s.seq = .writeback →
      s.regPorts.writeAddr = some s.scratch.wbIndex ∧ s.regPorts.writeEnable = s.scratch.ctl.regWrite ∧
      s.regPorts.writeData = (if s.scratch.ctl.memToReg then s.scratch.memData else some s.scratch.aluResult) ∧
      ∀ (d r : RegIx) (v : Word), s.regPorts.writeAddr = some d → s.regPorts.writeData = some v →
        (stageWriteback s).readReg r =
          if s.regPorts.writeEnable = true ∧ r = d ∧ r ≠ 0#5 then v else s.readReg r) ∧
    (s.regPorts.writeEnable = true → s.seq = .writeback)

/-- R24: an instruction changes no register but its destination, and register 0 never. -/
def Obligations.OnlyDestinationRegisterChanges : Prop :=
  ∀ (i : Instr) (s t : State) (r : RegIx), exec i s = .next t → t.readReg r ≠ s.readReg r →
    destination i = some r ∧ r ≠ 0#5

/-- R27: the next pc of a completed step is pc + 4, the branch target or the jump target, and it is a multiple of 4
when pc is; so pc is a multiple of 4 in every state of every run, and no run takes FETCH_MISALIGNED. -/
def Obligations.NextPcIsOneOfThree : Prop :=
  (∀ s t : State, s.seq = .fetch → step s = .next t → t.seq ≠ .faulted →
    ∃ w : Word, s.imemRead s.pc = .ok w ∧
      (t.pc = s.pc + 4#32 ∨
        (fieldFunc w = 0b001100#6 ∧ t.pc = (s.pc + 4#32) + ((fieldImm16 w).signExtend 32 <<< 2)) ∨
        (fieldFunc w = 0b001111#6 ∧
          t.pc = ((s.pc + 4#32) &&& 0xF0000000#32) ||| ((fieldJimm26 w).setWidth 32 <<< 2))) ∧
      (s.pc.toNat % 4 = 0 → t.pc.toNat % 4 = 0)) ∧
  (∀ s : State, Reachable s → s.pc.toNat % 4 = 0 ∧ s.fault.code ≠ .fetchMisaligned)

/-- R34: no step reads a value of the per-step record that an earlier step left. -/
def Obligations.StepIgnoresEarlierRecord : Prop :=
  ∀ (s : State) (r : Scratch), s.seq = .fetch → step { s with scratch := r } = step s

/-- R36: icount is incremented by 1, modulo 2^64, by a completed step, the halting one included, and not by a
faulting one; no instruction's effect on registers, data memory, pc or fault record depends on it. -/
def Obligations.InstructionCounter : Prop :=
  (∀ s t : State, s.seq = .fetch → step s = .next t →
    (t.seq = .faulted → t.icount = s.icount) ∧
    (t.seq ≠ .faulted → t.icount.toNat = (s.icount.toNat + 1) % 2 ^ 64)) ∧
  (∀ (i : Instr) (s t : State) (n : BitVec 64), exec i s = .next t →
    ∃ u : State, exec i { s with icount := n } = .next u ∧
      u.regs = t.regs ∧ u.dmem = t.dmem ∧ u.pc = t.pc ∧ u.fault = t.fault)

/-- R38: every piece of state when reset is released on a legal setup; the per-step record is not read. -/
def Obligations.ResetValues : Prop :=
  ∀ p : Setup, p.wf = true →
    let s := State.released p
    s.pc = 0#32 ∧
    s.readReg 0#5 = 0#32 ∧
    (∀ k : Fin 31, s.readReg (BitVec.ofNat 5 (k.val + 1)) = p.initRegs[k.val]) ∧
    s.dmem = p.initDmem ∧
    (∀ k : Fin p.program.length, s.imem.readWord (4 * k.val) = p.program[k.val]) ∧
    (∀ a : Nat, 4 * p.program.length ≤ a → s.imem.read a = p.imemInit.read a) ∧
    s.seq = .fetch ∧
    s.icount = 0#64 ∧
    s.fault = ⟨.none, 0#32, 0#32, 0#32⟩ ∧
    s.config = p.config ∧
    ∀ r : Scratch, step { s with scratch := r } = step s

/-! ## Memory (20_memory.md) -/

/-- R54 to R56: alignment is checked first, then the range on unbounded integers, with the code of the access. -/
def Obligations.AccessCheckOrder : Prop :=
  ∀ (k : Access) (size : Nat) (a : Word),
    (a.toNat % 4 ≠ 0 →
      accessFault k size a =
        some (match k with | .fetch => .fetchMisaligned | .load => .loadMisaligned | .store => .storeMisaligned)) ∧
    (a.toNat % 4 = 0 → a.toNat + 4 > size →
      accessFault k size a =
        some (match k with | .fetch => .fetchOutOfRange | .load => .loadOutOfRange | .store => .storeOutOfRange)) ∧
    (a.toNat % 4 = 0 → a.toNat + 4 ≤ size → accessFault k size a = none)

/-- R59: the data read. -/
def Obligations.DataRead : Prop :=
  ∀ (s : State) (a : Word),
    (a.toNat % 4 ≠ 0 → s.memRead a = .error .loadMisaligned) ∧
    (a.toNat % 4 = 0 → a.toNat + 4 > s.config.dmemBytes → s.memRead a = .error .loadOutOfRange) ∧
    (a.toNat % 4 = 0 → a.toNat + 4 ≤ s.config.dmemBytes →
      ∃ v : Word, s.memRead a = .ok v ∧
        v.toNat = (s.dmem.read a.toNat).toNat * 2 ^ 24 + (s.dmem.read (a.toNat + 1)).toNat * 2 ^ 16 +
          (s.dmem.read (a.toNat + 2)).toNat * 2 ^ 8 + (s.dmem.read (a.toNat + 3)).toNat)

/-- R60: the data write, over a memory in canonical form. A faulting write answers no state; one that does not fault
changes exactly the four bytes. -/
def Obligations.DataWrite : Prop :=
  ∀ (s : State) (a v : Word), s.dmem.wf = true →
    (a.toNat % 4 ≠ 0 → s.memWrite a v = .error .storeMisaligned) ∧
    (a.toNat % 4 = 0 → a.toNat + 4 > s.config.dmemBytes → s.memWrite a v = .error .storeOutOfRange) ∧
    (a.toNat % 4 = 0 → a.toNat + 4 ≤ s.config.dmemBytes →
      ∃ t : State, s.memWrite a v = .ok t ∧
        t.dmem.read a.toNat = v.extractLsb' 24 8 ∧
        t.dmem.read (a.toNat + 1) = v.extractLsb' 16 8 ∧
        t.dmem.read (a.toNat + 2) = v.extractLsb' 8 8 ∧
        t.dmem.read (a.toNat + 3) = v.extractLsb' 0 8 ∧
        DmemKeptOutside a.toNat s t ∧ t.dmem.wf = true ∧ t = { s with dmem := t.dmem })

/-- R61: the instruction fetch read. -/
def Obligations.FetchRead : Prop :=
  ∀ (s : State) (a : Word),
    (a.toNat % 4 ≠ 0 → s.imemRead a = .error .fetchMisaligned) ∧
    (a.toNat % 4 = 0 → a.toNat + 4 > s.config.imemBytes → s.imemRead a = .error .fetchOutOfRange) ∧
    (a.toNat % 4 = 0 → a.toNat + 4 ≤ s.config.imemBytes →
      ∃ v : Word, s.imemRead a = .ok v ∧
        v.toNat = (s.imem.read a.toNat).toNat * 2 ^ 24 + (s.imem.read (a.toNat + 1)).toNat * 2 ^ 16 +
          (s.imem.read (a.toNat + 2)).toNat * 2 ^ 8 + (s.imem.read (a.toNat + 3)).toNat)

/-- R64: i_req is 1 in FETCH only; there i_addr is pc, i_rdata the fetched word when there is no fault, and i_fault 0,
1 or 2. -/
def Obligations.InstructionMemoryPort : Prop :=
  ∀ s : State,
    (s.imemPort.req = true ↔ s.seq = .fetch) ∧
    (s.seq = .fetch →
      s.imemPort.addr = some s.pc ∧
      (∀ w : Word, s.imemRead s.pc = .ok w → s.imemPort.rdata = some w) ∧
      (s.imemPort.fault = 0#2 ↔ ∃ w, s.imemRead s.pc = .ok w) ∧
      (s.imemPort.fault = 1#2 ↔ s.imemRead s.pc = .error .fetchMisaligned) ∧
      (s.imemPort.fault = 2#2 ↔ s.imemRead s.pc = .error .fetchOutOfRange))

/-- R65: in MEMORY d_addr is alu_result, d_wdata rt_val, d_re and d_we the control signals; d_rdata is the word read
when d_re is 1 and there is no fault; d_fault is 0 for no fault, 1 for misaligned, 2 for out of range; with both enables
0 nothing is accessed or checked; no control row sets both. -/
def Obligations.DataMemoryPort : Prop :=
  (∀ f : BitVec 6, ¬ ((controlUnit f).memRead = true ∧ (controlUnit f).memWrite = true)) ∧
  ∀ s : State,
    (s.seq ≠ .memory → s.dmemPort.re = false ∧ s.dmemPort.we = false) ∧
    (s.seq = .memory →
      let c := s.scratch.ctl
      let a := s.scratch.aluResult
      s.dmemPort.addr = some a ∧ s.dmemPort.re = c.memRead ∧ s.dmemPort.we = c.memWrite ∧
      s.dmemPort.wdata = some s.scratch.rtVal ∧
      (c.memRead = true →
        (∀ v : Word, s.memRead a = .ok v → s.dmemPort.rdata = some v) ∧
        (s.dmemPort.fault = 0#2 ↔ ∃ v : Word, s.memRead a = .ok v) ∧
        (s.dmemPort.fault = 1#2 ↔ s.memRead a = .error .loadMisaligned) ∧
        (s.dmemPort.fault = 2#2 ↔ s.memRead a = .error .loadOutOfRange)) ∧
      (c.memRead = false → c.memWrite = true →
        (s.dmemPort.fault = 0#2 ↔ ∃ t : State, s.memWrite a s.scratch.rtVal = .ok t) ∧
        (s.dmemPort.fault = 1#2 ↔ s.memWrite a s.scratch.rtVal = .error .storeMisaligned) ∧
        (s.dmemPort.fault = 2#2 ↔ s.memWrite a s.scratch.rtVal = .error .storeOutOfRange)) ∧
      (c.memRead = false → c.memWrite = false →
        s.dmemPort.fault = 0#2 ∧ (stageMemory s).seq = .writeback ∧
        DmemKept s (stageMemory s)))

/-- R65's last sentences, for a whole instruction: no control row reads and writes data memory, and an instruction whose
row does neither takes no data fault. -/
def Obligations.AtMostOneDataAccess : Prop :=
  (∀ f : BitVec 6, ¬ ((controlUnit f).memRead = true ∧ (controlUnit f).memWrite = true)) ∧
  (∀ (i : Instr) (s t : State), (controlUnit i.func).memRead = false → (controlUnit i.func).memWrite = false →
    exec i s = .next t → t.seq ≠ .faulted)

/-- R67: a text is accepted exactly when it is the word file of a program that fits, and loading it places the words
in line order from offset 0, big-endian, over the bytes that were there, where a fetch reads them; a program that does
not fit is not released. -/
def Obligations.ProgramLoad : Prop :=
  (∀ (c : Config) (text : List Char) (ws : List Word),
    parseWordFile c text = .ok ws ↔ text = textOfWords ws ∧ ws.length ≤ c.imemBytes / 4) ∧
  (∀ (m : Memory) (ws : List Word), m.wf = true →
    (∀ k : Fin ws.length,
      let n := loadWords m 0 ws
      let w := ws[k.val]
      n.read (4 * k.val) = w.extractLsb' 24 8 ∧ n.read (4 * k.val + 1) = w.extractLsb' 16 8 ∧
      n.read (4 * k.val + 2) = w.extractLsb' 8 8 ∧ n.read (4 * k.val + 3) = w.extractLsb' 0 8) ∧
    (∀ a : Nat, 4 * ws.length ≤ a → (loadWords m 0 ws).read a = m.read a)) ∧
  (∀ (p : Setup) (k : Fin p.program.length), p.wf = true →
    (State.released p).imemRead (BitVec.ofNat 32 (4 * k.val)) = .ok p.program[k.val]) ∧
  (∀ (s : State) (p : Setup), p.config.imemBytes / 4 < p.program.length → s.releaseReset p = none)

/-- R68: SW followed by LW to the same computed address returns the stored value; LW of another word returns what it
held before the store. -/
def Obligations.StoreThenLoad : Prop :=
  ∀ (s t : State) (rt rs rt' rs' : RegIx) (imm imm' : BitVec 16), s.dmem.wf = true →
    exec (.sw rt rs imm) s = .next t → t.seq ≠ .faulted → rt' ≠ 0#5 →
    wordAligned (t.effectiveAddr rs' imm') = true →
    inRange t.config.dmemBytes (t.effectiveAddr rs' imm') = true →
    ∃ u : State, exec (.lw rt' rs' imm') t = .next u ∧ u.seq ≠ .faulted ∧
      u.readReg rt' =
        if t.effectiveAddr rs' imm' = s.effectiveAddr rs imm then s.readReg rt
        else s.dmem.readWord (t.effectiveAddr rs' imm').toNat

/-- R51, R70: no step writes instruction memory, and only SW changes data memory, in the four bytes at its effective
address. -/
def Obligations.OnlyStoresWriteMemory : Prop :=
  (∀ s t : State, step s = .next t → t.imem = s.imem) ∧
  (∀ (i : Instr) (s t : State) (b : Nat), exec i s = .next t → t.dmem.read b ≠ s.dmem.read b →
    ∃ (rt rs : RegIx) (imm : BitVec 16), i = .sw rt rs imm ∧
      (s.effectiveAddr rs imm).toNat ≤ b ∧ b < (s.effectiveAddr rs imm).toNat + 4)

/-! ## Datapath (40_datapath.md) -/

/-- R124: bits 31:28 of the jump target come from pc_plus4, bits 27:2 from the field, bits 1:0 are zero. -/
def Obligations.JumpTargetBits : Prop :=
  (∀ (pc4 : Word) (j : BitVec 26),
    (jumpTargetOf pc4 j).toNat = pc4.toNat / 2 ^ 28 * 2 ^ 28 + j.toNat * 4) ∧
  jumpTargetOf (8#32 + 4#32) 64#26 = 0x100#32

/-- R125: the branch target is pc_plus4 plus four times the signed immediate, modulo 2^32. -/
def Obligations.BranchTargetArithmetic : Prop :=
  (∀ (pc4 : Word) (imm : BitVec 16),
    ((branchTargetOf pc4 (signExtImm imm)).toNat : Int) = ((pc4.toNat : Int) + 4 * imm.toInt) % 2 ^ 32 ∧
    -131072 ≤ 4 * imm.toInt ∧ 4 * imm.toInt ≤ 131068) ∧
  branchTargetOf (4#32 + 4#32) (signExtImm 0xFFFE#16) = 0#32

/-- R127: the ALU adds and subtracts modulo 2^32, Zero is 1 exactly when the result is 0, and for Sub exactly when the
operands are equal. -/
def Obligations.AluArithmetic : Prop :=
  ∀ a b : Word,
    (alu .add a b).1.toNat = (a.toNat + b.toNat) % 2 ^ 32 ∧
    (alu .sub a b).1.toNat = (a.toNat + 2 ^ 32 - b.toNat) % 2 ^ 32 ∧
    (alu .sub a b).1 = a + ~~~b + 1#32 ∧
    (alu .add a b).1.toInt = (a.toInt + b.toInt).bmod (2 ^ 32) ∧
    (alu .sub a b).1.toInt = (a.toInt - b.toInt).bmod (2 ^ 32) ∧
    (∀ op : AluOp, (alu op a b).2 = true ↔ ∀ k : Nat, k < 32 → (alu op a b).1.getLsbD k = false) ∧
    ((alu .sub a b).2 = true ↔ a = b)

/-- R131, R132: a step that does not fault commits: pc is the step's next_pc, icount goes up by 1, and the committed pc
and count decide the sequencer's state, in R132's order. -/
def Obligations.CommitAndTermination : Prop :=
  ∀ s t : State, s.seq = .fetch → step s = .next t → t.seq ≠ .faulted →
    t.pc = t.scratch.nextPc ∧ t.icount = s.icount + 1#64 ∧
    (t.config.sentinel.toNat ≤ t.pc.toNat → t.seq = .haltedSentinel) ∧
    (t.pc.toNat < t.config.sentinel.toNat → t.pc = 0#32 → t.seq = .haltedLoop) ∧
    (t.pc.toNat < t.config.sentinel.toNat → t.pc ≠ 0#32 →
      (∀ n : Nat, t.config.stepLimit = some n → n ≤ t.icount.toNat → t.seq = .stoppedLimit) ∧
      (∀ n : Nat, t.config.stepLimit = some n → t.icount.toNat < n → t.seq = .fetch) ∧
      (t.config.stepLimit = none → t.seq = .fetch))

/-- R133: the atomic step, which runs an instruction's own meaning, is the step the datapath makes through its six
sub-stages under the control table. -/
def Obligations.StepRefinesSixStages : Prop :=
  ∀ s : State, s.seq = .fetch → step s = .next (sequencedStep s)

/-- R120, R133: the sub-stages follow in R120's order, and wherever inside a fetched instruction the machine stands,
running it on ends where the whole step ends. That `step` from a sub-stage state runs the instruction under way to its
end is the model's own choice (log 8). -/
def Obligations.StepFromAnyStageEndsAlike : Prop :=
  ∀ (s : State) (ir : Word), s.seq = .fetch → s.imemRead s.pc = .ok ir →
    let a := stageFetch s
    let b := stageDecode a
    let c := stageRegread b
    let d := stageExecute c
    let e := stageMemory d
    (a.seq = .decode ∧ b.seq = .regread ∧ c.seq = .execute ∧ d.seq = .memory ∧
      (e.seq = .writeback ∨ e.seq = .faulted)) ∧
    step a = step s ∧ step b = step s ∧ step c = step s ∧ step d = step s ∧
    (e.seq = .writeback → step e = step s) ∧ (e.seq = .faulted → step s = .next e)

/-- R121: when the bytes at pc decode, the step is the instruction's meaning on the state with the per-step record
written. -/
def Obligations.StepRunsDecodedInstruction : Prop :=
  ∀ (s : State) (ir : Word) (i : Instr), s.seq = .fetch → s.imemRead s.pc = .ok ir → decode ir = .ok i →
    step s = exec i { s with scratch := stepRecord s ir } ∧ (stepRecord s ir).ir = ir ∧ (stepRecord s ir).pc = s.pc

/-- R135, R136: from FETCH every step answers a next state. -/
def Obligations.EveryFetchStepAnswers : Prop :=
  ∀ s : State, s.seq = .fetch → ∃ t : State, step s = .next t

/-! ## Instructions (41_alu_ops.md to 44_reserved_noop.md) -/

/-- R140: ADD. -/
def Obligations.AddInstruction : Prop :=
  ∀ (rd rs rt : RegIx) (s : State),
    (∀ u : BitVec 11,
      decode (0b000000#6 ++ rs ++ rt ++ rd ++ u : BitVec (6 + 5 + 5 + 5 + 11)) = .ok (.add rd rs rt) ∧
      (stepRecord s (0b000000#6 ++ rs ++ rt ++ rd ++ u : BitVec (6 + 5 + 5 + 5 + 11))).zero =
        decide (s.readReg rs + s.readReg rt = 0#32)) ∧
    encodeOp ⟨.add, [regInt rd, regInt rs, regInt rt]⟩ = .ok (encode (.add rd rs rt)) ∧
    controlUnit 0b000000#6 = ctlRow true false false false false .add false false true ∧
    ∃ t : State, exec (.add rd rs rt) s = .next t ∧
      (rd ≠ 0#5 → t.readReg rd = s.readReg rs + s.readReg rt) ∧
      RegsKeptBut rd s t ∧ DmemKept s t ∧ Completed s t (s.pc + 4#32) ∧ t.seq ≠ .faulted

/-- R141: SUB. -/
def Obligations.SubInstruction : Prop :=
  ∀ (rd rs rt : RegIx) (s : State),
    (∀ u : BitVec 11,
      decode (0b000001#6 ++ rs ++ rt ++ rd ++ u : BitVec (6 + 5 + 5 + 5 + 11)) = .ok (.sub rd rs rt) ∧
      (stepRecord s (0b000001#6 ++ rs ++ rt ++ rd ++ u : BitVec (6 + 5 + 5 + 5 + 11))).zero =
        decide (s.readReg rs = s.readReg rt)) ∧
    encodeOp ⟨.sub, [regInt rd, regInt rs, regInt rt]⟩ = .ok (encode (.sub rd rs rt)) ∧
    controlUnit 0b000001#6 = ctlRow true false false false false .sub false false true ∧
    ∃ t : State, exec (.sub rd rs rt) s = .next t ∧
      (rd ≠ 0#5 → t.readReg rd = s.readReg rs - s.readReg rt) ∧
      RegsKeptBut rd s t ∧ DmemKept s t ∧ Completed s t (s.pc + 4#32) ∧ t.seq ≠ .faulted

/-- R142: ADDI. -/
def Obligations.AddiInstruction : Prop :=
  ∀ (rt rs : RegIx) (imm : BitVec 16) (s : State),
    decode (0b000101#6 ++ rs ++ rt ++ imm : BitVec (6 + 5 + 5 + 16)) = .ok (.addi rt rs imm) ∧
    (stepRecord s (0b000101#6 ++ rs ++ rt ++ imm : BitVec (6 + 5 + 5 + 16))).zero =
      decide (s.readReg rs + imm.signExtend 32 = 0#32) ∧
    encodeOp ⟨.addi, [regInt rt, regInt rs, imm.toInt]⟩ = .ok (encode (.addi rt rs imm)) ∧
    controlUnit 0b000101#6 = ctlRow false false false false false .add false true true ∧
    ∃ t : State, exec (.addi rt rs imm) s = .next t ∧
      (rt ≠ 0#5 → t.readReg rt = s.readReg rs + imm.signExtend 32) ∧
      RegsKeptBut rt s t ∧ DmemKept s t ∧ Completed s t (s.pc + 4#32) ∧ t.seq ≠ .faulted

/-- R150: LW. On an aligned address in range it loads the word; otherwise it takes fault 3 or 4, with rt = 0 too. -/
def Obligations.LwInstruction : Prop :=
  ∀ (rt rs : RegIx) (imm : BitVec 16) (s : State),
    let ea := s.readReg rs + imm.signExtend 32
    decode (0b001000#6 ++ rs ++ rt ++ imm : BitVec (6 + 5 + 5 + 16)) = .ok (.lw rt rs imm) ∧
    (stepRecord s (0b001000#6 ++ rs ++ rt ++ imm : BitVec (6 + 5 + 5 + 16))).zero = decide (ea = 0#32) ∧
    encodeOp ⟨.lw, [regInt rt, regInt rs, imm.toInt]⟩ = .ok (encode (.lw rt rs imm)) ∧
    controlUnit 0b001000#6 = ctlRow false false false true true .add false true true ∧
    (ea.toNat % 4 = 0 → ea.toNat + 4 ≤ s.config.dmemBytes →
      ∃ t : State, exec (.lw rt rs imm) s = .next t ∧
        (rt ≠ 0#5 →
          (t.readReg rt).toNat =
            (s.dmem.read ea.toNat).toNat * 2 ^ 24 + (s.dmem.read (ea.toNat + 1)).toNat * 2 ^ 16 +
              (s.dmem.read (ea.toNat + 2)).toNat * 2 ^ 8 + (s.dmem.read (ea.toNat + 3)).toNat) ∧
        RegsKeptBut rt s t ∧ DmemKept s t ∧ Completed s t (s.pc + 4#32) ∧ t.seq ≠ .faulted) ∧
    (ea.toNat % 4 ≠ 0 →
      ∃ t : State, exec (.lw rt rs imm) s = .next t ∧ FaultTaken s t .loadMisaligned ea s.scratch.ir) ∧
    (ea.toNat % 4 = 0 → ea.toNat + 4 > s.config.dmemBytes →
      ∃ t : State, exec (.lw rt rs imm) s = .next t ∧ FaultTaken s t .loadOutOfRange ea s.scratch.ir)

/-- R151: SW. On an aligned address in range it stores the word, big-endian; otherwise it takes fault 5 or 6. -/
def Obligations.SwInstruction : Prop :=
  ∀ (rt rs : RegIx) (imm : BitVec 16) (s : State), s.dmem.wf = true →
    let ea := s.readReg rs + imm.signExtend 32
    decode (0b001001#6 ++ rs ++ rt ++ imm : BitVec (6 + 5 + 5 + 16)) = .ok (.sw rt rs imm) ∧
    (stepRecord s (0b001001#6 ++ rs ++ rt ++ imm : BitVec (6 + 5 + 5 + 16))).zero = decide (ea = 0#32) ∧
    encodeOp ⟨.sw, [regInt rt, regInt rs, imm.toInt]⟩ = .ok (encode (.sw rt rs imm)) ∧
    controlUnit 0b001001#6 = ctlRow false false false false false .add true true false ∧
    (ea.toNat % 4 = 0 → ea.toNat + 4 ≤ s.config.dmemBytes →
      ∃ t : State, exec (.sw rt rs imm) s = .next t ∧
        t.dmem.read ea.toNat = (s.readReg rt).extractLsb' 24 8 ∧
        t.dmem.read (ea.toNat + 1) = (s.readReg rt).extractLsb' 16 8 ∧
        t.dmem.read (ea.toNat + 2) = (s.readReg rt).extractLsb' 8 8 ∧
        t.dmem.read (ea.toNat + 3) = (s.readReg rt).extractLsb' 0 8 ∧
        DmemKeptOutside ea.toNat s t ∧ RegsKept s t ∧ Completed s t (s.pc + 4#32) ∧ t.seq ≠ .faulted) ∧
    (ea.toNat % 4 ≠ 0 →
      ∃ t : State, exec (.sw rt rs imm) s = .next t ∧ FaultTaken s t .storeMisaligned ea s.scratch.ir) ∧
    (ea.toNat % 4 = 0 → ea.toNat + 4 > s.config.dmemBytes →
      ∃ t : State, exec (.sw rt rs imm) s = .next t ∧ FaultTaken s t .storeOutOfRange ea s.scratch.ir)

/-- R160: BEQ. -/
def Obligations.BeqInstruction : Prop :=
  ∀ (rt rs : RegIx) (imm : BitVec 16) (s : State),
    decode (0b001100#6 ++ rs ++ rt ++ imm : BitVec (6 + 5 + 5 + 16)) = .ok (.beq rt rs imm) ∧
    (stepRecord s (0b001100#6 ++ rs ++ rt ++ imm : BitVec (6 + 5 + 5 + 16))).zero =
      decide (s.readReg rs = s.readReg rt) ∧
    encodeOp ⟨.beq, [regInt rt, regInt rs, imm.toInt]⟩ = .ok (encode (.beq rt rs imm)) ∧
    controlUnit 0b001100#6 = ctlRow false false true false false .sub false false false ∧
    ∃ t : State, exec (.beq rt rs imm) s = .next t ∧ RegsKept s t ∧ DmemKept s t ∧ t.seq ≠ .faulted ∧
      (s.readReg rs = s.readReg rt → Completed s t ((s.pc + 4#32) + (imm.signExtend 32 <<< 2))) ∧
      (s.readReg rs ≠ s.readReg rt → Completed s t (s.pc + 4#32))

/-- R161: J. -/
def Obligations.JInstruction : Prop :=
  ∀ (imm : BitVec 26) (s : State),
    decode (0b001111#6 ++ imm : BitVec (6 + 26)) = .ok (.j imm) ∧
    encodeOp ⟨.j, [imm.toInt]⟩ = .ok (encode (.j imm)) ∧
    controlUnit 0b001111#6 = ctlRow false true false false false .add false false false ∧
    ∃ t : State, exec (.j imm) s = .next t ∧ RegsKept s t ∧ DmemKept s t ∧
      Completed s t (((s.pc + 4#32) &&& 0xF0000000#32) ||| (imm.setWidth 32 <<< 2)) ∧ t.seq ≠ .faulted

/-- R170: LWR, whatever its other 26 bits, has the inert vector and only advances the pc. -/
def Obligations.LwrInstruction : Prop :=
  ∀ (x : BitVec 26) (s : State),
    decode (0b000010#6 ++ x : BitVec (6 + 26)) = .ok .lwr ∧
    decodeOp (0b000010#6 ++ x : BitVec (6 + 26)) = .unknown 2#6 ∧
    lookupMnemonic "LWR".toList = none ∧
    controlUnit 0b000010#6 = ctlRow false false false false false .add false false false ∧
    (stepRecord s (0b000010#6 ++ x : BitVec (6 + 26))).aluResult =
      s.readReg (x.extractLsb' 21 5) + s.readReg (x.extractLsb' 16 5) ∧
    ∃ t : State, exec .lwr s = .next t ∧ RegsKept s t ∧ DmemKept s t ∧ Completed s t (s.pc + 4#32) ∧
      t.seq ≠ .faulted

/-- R171, R187: a fetched word whose func is in no row only advances the pc and the count; it is no fault. -/
def Obligations.UnrecognizedFuncStep : Prop :=
  ∀ (s : State) (w : Word), s.seq = .fetch → s.imemRead s.pc = .ok w →
    fieldFunc w ∉
      [0b000000#6, 0b000001#6, 0b000010#6, 0b000101#6, 0b001000#6, 0b001001#6, 0b001100#6, 0b001111#6] →
    controlUnit (fieldFunc w) = ctlRow false false false false false .add false false false ∧
    ∃ t : State, step s = .next t ∧ RegsKept s t ∧ DmemKept s t ∧ t.imem = s.imem ∧ t.config = s.config ∧
      t.fault = s.fault ∧ t.pc = s.pc + 4#32 ∧ t.icount = s.icount + 1#64 ∧
      t.seq = terminationSeq s.config (s.pc + 4#32) (s.icount + 1#64) ∧ t.seq ≠ .faulted

/-! ## Faults (60_exceptions.md) -/

/-- R181: a step from FETCH faults with each code exactly when the table says, with the table's
fault_addr, and the codes carry the table's numbers. -/
def Obligations.FaultCodesExactly : Prop :=
  (∀ s : State, s.seq = .fetch →
    ∃ t : State, step s = .next t ∧
      let faultsWith := fun c : FaultCode => t.seq = .faulted ∧ t.fault.code = c
      let ea := fun w : Word => s.readReg (fieldRs w) + (fieldImm16 w).signExtend 32
      let fetches := fun (f : BitVec 6) (w : Word) => s.imemRead s.pc = .ok w ∧ fieldFunc w = f
      (faultsWith .fetchMisaligned ↔ s.pc.toNat % 4 ≠ 0) ∧
      (faultsWith .fetchOutOfRange ↔ s.pc.toNat % 4 = 0 ∧ s.pc.toNat + 4 > s.config.imemBytes) ∧
      (faultsWith .loadMisaligned ↔ ∃ w, fetches 0b001000#6 w ∧ (ea w).toNat % 4 ≠ 0) ∧
      (faultsWith .loadOutOfRange ↔
        ∃ w, fetches 0b001000#6 w ∧ (ea w).toNat % 4 = 0 ∧ (ea w).toNat + 4 > s.config.dmemBytes) ∧
      (faultsWith .storeMisaligned ↔ ∃ w, fetches 0b001001#6 w ∧ (ea w).toNat % 4 ≠ 0) ∧
      (faultsWith .storeOutOfRange ↔
        ∃ w, fetches 0b001001#6 w ∧ (ea w).toNat % 4 = 0 ∧ (ea w).toNat + 4 > s.config.dmemBytes) ∧
      ¬ faultsWith .none ∧
      (faultsWith .fetchMisaligned ∨ faultsWith .fetchOutOfRange → t.fault.addr = s.pc) ∧
      (faultsWith .loadMisaligned ∨ faultsWith .loadOutOfRange ∨ faultsWith .storeMisaligned ∨
          faultsWith .storeOutOfRange →
        ∃ w, s.imemRead s.pc = .ok w ∧ t.fault.addr = ea w)) ∧
  [FaultCode.none, .fetchMisaligned, .fetchOutOfRange, .loadMisaligned, .loadOutOfRange, .storeMisaligned,
    .storeOutOfRange].map FaultCode.number = [0, 1, 2, 3, 4, 5, 6]

/-- R182: the fault record. -/
def Obligations.FaultRecordContents : Prop :=
  ∀ s t : State, s.seq = .fetch → step s = .next t → t.seq = .faulted →
    t.fault.pc = s.pc ∧
    (t.fault.code = .fetchMisaligned ∨ t.fault.code = .fetchOutOfRange → t.fault.addr = s.pc ∧ t.fault.ir = 0#32) ∧
    (t.fault.code = .loadMisaligned ∨ t.fault.code = .loadOutOfRange ∨ t.fault.code = .storeMisaligned ∨
        t.fault.code = .storeOutOfRange →
      s.imemRead s.pc = .ok t.fault.ir ∧
      t.fault.addr = s.readReg (fieldRs t.fault.ir) + (fieldImm16 t.fault.ir).signExtend 32)

/-- R183: a step that faults leaves pc, every register, every byte of data memory and icount as they were. -/
def Obligations.FaultsArePrecise : Prop :=
  ∀ s t : State, s.seq = .fetch → step s = .next t → t.seq = .faulted →
    t.pc = s.pc ∧ RegsKept s t ∧ DmemKept s t ∧ t.icount = s.icount ∧ t.imem = s.imem ∧ t.config = s.config

/-- R186, R200: no step is enabled in a stop state or while reset is asserted; reset can be asserted from any state
and, released, leads to FETCH. -/
def Obligations.StopStatesAreTerminal : Prop :=
  (∀ s : State, s.seq.stopped = true ∨ s.seq = .reset → ∀ t : State, step s ≠ .next t) ∧
  (∀ s : State, s.assertReset.seq = .reset ∧
    ∀ p : Setup, p.wf = true → ∃ t : State, s.assertReset.releaseReset p = some t ∧ t.seq = .fetch) ∧
  (∀ (s : State) (p : Setup) (t : State), s.releaseReset p = some t → s.seq = .reset ∧ p.wf = true)

/-- R193: after a completed step the core exposes that step's record. Which fields count as used, and when, and that
next_pc is always shown, is the model's inference from the control signals (log 20, DEDUCED): the data address with
MemRead or MemWrite, mem_data with MemRead, the write-back index and value with RegWrite, each target with its signal. -/
def Obligations.TraceOfCompletedStep : Prop :=
  ∀ (s t : State) (w : Word), s.seq = .fetch → s.imemRead s.pc = .ok w → step s = .next t → t.seq ≠ .faulted →
    ∃ r : TraceRecord, t.traceRecord = some r ∧
      r.pc = s.pc ∧ r.ir = w ∧ r.func = fieldFunc w ∧ r.rs = fieldRs w ∧ r.rt = fieldRt w ∧ r.rd = fieldRd w ∧
      r.imm16 = fieldImm16 w ∧ r.simm = (fieldImm16 w).signExtend 32 ∧ r.jimm26 = fieldJimm26 w ∧
      r.ctl = controlUnit (fieldFunc w) ∧ r.rsVal = s.readReg (fieldRs w) ∧ r.rtVal = s.readReg (fieldRt w) ∧
      (∀ o : AsmOp, decodeOp w = .op o → r.mnemonic = some o.mnemonic) ∧
      (∀ f : BitVec 6, decodeOp w = .unknown f → r.mnemonic = none) ∧
      r.aluB = (if r.ctl.aluSrc then r.simm else r.rtVal) ∧
      (r.aluResult, r.zero) = alu r.ctl.aluOp r.rsVal r.aluB ∧
      r.dataAddr = (if r.ctl.memRead || r.ctl.memWrite then some r.aluResult else none) ∧
      (r.ctl.memRead = true → ∃ v : Word, s.memRead r.aluResult = .ok v ∧ r.memData = some v) ∧
      (r.ctl.memRead = false → r.memData = none) ∧
      r.wbIndex = (if r.ctl.regWrite then some (if r.ctl.regDst then r.rd else r.rt) else none) ∧
      r.wbValue =
        (if r.ctl.regWrite then (if r.ctl.memToReg then r.memData else some r.aluResult) else none) ∧
      r.branchTarget = (if r.ctl.branch then some ((s.pc + 4#32) + (r.simm <<< 2)) else none) ∧
      r.jumpTarget =
        (if r.ctl.jump then some (((s.pc + 4#32) &&& 0xF0000000#32) ||| (r.jimm26.setWidth 32 <<< 2)) else none) ∧
      r.nextPc = t.pc ∧
      (∀ d v, r.wbIndex = some d → r.wbValue = some v → d ≠ 0#5 → t.readReg d = v)

/-! ## Reset, runs and the whole machine (70_reset_and_hazards.md) -/

/-- R203, R204: the host reads a snapshot in a stop state only, with the fault record for FAULTED only. -/
def Obligations.SnapshotInStopStates : Prop :=
  ∀ s : State,
    (∀ n : Snapshot, s.snapshot = some n →
      s.seq.stopped = true ∧ n.regs = s.regs ∧ n.imem = s.imem ∧ n.dmem = s.dmem ∧ n.pc = s.pc ∧
      n.icount = s.icount ∧ n.seq = s.seq ∧ (s.seq = .faulted → n.fault = some s.fault) ∧
      (s.seq ≠ .faulted → n.fault = none)) ∧
    (s.seq.stopped = true → ∃ n : Snapshot, s.snapshot = some n)

/-- The invariant of a run holds at `State.reset`, whose open values are the model's choice (logs 2 to 5). -/
def Obligations.ResetMeetsInvariant : Prop := State.reset.Inv

/-- The invariant holds whenever reset is released on a legal setup, whatever its program and contents. -/
def Obligations.ReleaseMeetsInvariant : Prop :=
  ∀ p : Setup, p.wf = true → (State.released p).Inv

/-- Every step keeps the invariant: legal unchanged configuration, x[0] = 0, pc a multiple of 4, canonical memories
inside their capacities, and a sequencer state coherent with pc, icount and the fault record. -/
def Obligations.StepKeepsInvariant : Prop :=
  ∀ s t : State, s.Inv → step s = .next t → t.Inv

/-- No step changes the configuration (R37). -/
def Obligations.StepKeepsConfiguration : Prop :=
  ∀ s t : State, step s = .next t → t.config = s.config

/-- R35: in every state of every run, with any program, the invariant holds and fault_code is NONE outside FAULTED.
That no state of a run lies inside a step is the model's choice of an atomic step (log 8), and that none is in RESET its
choice that a run starts at release and the host's actions are no part of `step` (log 16). -/
def Obligations.ReachableStatesAreSound : Prop :=
  ∀ s : State, Reachable s →
    s.Inv ∧ (s.seq ≠ .faulted → s.fault.code = .none) ∧ s.seq.midStep = false ∧ s.seq ≠ .reset

/-! ## The model's own conventions -/

/-- The model's own choice (log 17), no rule of the spec: a signal of an interface has no value where the spec gives it
none. The read data has none on a fetch or a load that faults, and that of the data memory none with d_re 0; outside its
sub-stage a port carries nothing and its fault signal is 0. -/
def Obligations.IdleInterfaceSignals : Prop :=
  ∀ s : State,
    (s.seq ≠ .fetch → s.imemPort = ⟨none, false, none, 0#2⟩) ∧
    (s.seq ≠ .memory → s.dmemPort = ⟨none, false, false, none, none, 0#2⟩) ∧
    (∀ c : FaultCode, s.seq = .fetch → s.imemRead s.pc = .error c → s.imemPort.rdata = none) ∧
    (∀ c : FaultCode, s.seq = .memory → s.memRead s.scratch.aluResult = .error c → s.dmemPort.rdata = none) ∧
    (s.seq = .memory → s.scratch.ctl.memRead = false → s.dmemPort.rdata = none) ∧
    (s.seq ≠ .regread →
      s.regPorts.readAddr1 = none ∧ s.regPorts.readData1 = none ∧
      s.regPorts.readAddr2 = none ∧ s.regPorts.readData2 = none) ∧
    (s.seq ≠ .writeback →
      s.regPorts.writeAddr = none ∧ s.regPorts.writeData = none ∧ s.regPorts.writeEnable = false)
end

