-- ==== Sys2Proof/Laws/Memory.lean ====
section
/-! SUPPORT. The laws of one memory: read after write, the canonical form, and that equal contents are equal data. -/

namespace Sys2Proof.Machine

/-! ## One byte of a listing -/

theorem cellsRead_of_all_lt {l : List Host.Cell} {a b : Nat} (h : l.all (fun c => decide (b < c.1)) = true)
    (hab : a ≤ b) : cellsRead l a = Memory.unlisted := by
  induction l with
  | nil => rfl
  | cons c t ih =>
    obtain ⟨k, v⟩ := c
    simp only [List.all_cons, Bool.and_eq_true, decide_eq_true_eq] at h
    have : k ≠ a := by omega
    simp [cellsRead, this, ih h.2]

theorem cellsRead_write_same {l : List Host.Cell} (h : cellsWf l = true) (a : Nat) (v : Byte) :
    cellsRead (cellsWrite l a v) a = v := by
  induction l with
  | nil => by_cases hv : v = Memory.unlisted <;> simp [cellsWrite, cellsRead, hv]
  | cons c t ih =>
    obtain ⟨b, w⟩ := c
    simp only [cellsWf, Bool.and_eq_true] at h
    unfold cellsWrite
    by_cases hab : a < b
    · by_cases hv : v = Memory.unlisted
      · have hne : b ≠ a := by omega
        simp [hab, hv, cellsRead, hne, cellsRead_of_all_lt h.1.2 (Nat.le_of_lt hab)]
      · simp [hab, hv, cellsRead]
    · by_cases he : a = b
      · subst he
        by_cases hv : v = Memory.unlisted
        · simp [hv, cellsRead_of_all_lt h.1.2 (Nat.le_refl a)]
        · simp [hv, cellsRead]
      · have hne : b ≠ a := fun e => he e.symm
        simp [hab, he, cellsRead, hne, ih h.2]

theorem cellsRead_write_other (l : List Host.Cell) {a c : Nat} (h : c ≠ a) (v : Byte) :
    cellsRead (cellsWrite l a v) c = cellsRead l c := by
  have h' : a ≠ c := Ne.symm h
  induction l with
  | nil => by_cases hv : v = Memory.unlisted <;> simp [cellsWrite, cellsRead, hv, h']
  | cons d t ih =>
    obtain ⟨b, w⟩ := d
    unfold cellsWrite
    by_cases hab : a < b
    · by_cases hv : v = Memory.unlisted <;> simp [hab, hv, cellsRead, h']
    · by_cases he : a = b
      · subst he
        by_cases hv : v = Memory.unlisted <;> simp [hv, cellsRead, h']
      · simp [hab, he, cellsRead, ih]

theorem cellsWrite_all {p : Nat → Bool} {l : List Host.Cell} (h : l.all (fun c => p c.1) = true) {a : Nat}
    (ha : p a = true) (v : Byte) : (cellsWrite l a v).all (fun c => p c.1) = true := by
  induction l with
  | nil => by_cases hv : v = Memory.unlisted <;> simp [cellsWrite, hv, ha]
  | cons d t ih =>
    obtain ⟨b, w⟩ := d
    simp only [List.all_cons, Bool.and_eq_true] at h
    unfold cellsWrite
    by_cases hab : a < b
    · by_cases hv : v = Memory.unlisted <;> simp [hab, hv, ha, h.1] <;> simpa using h.2
    · by_cases he : a = b
      · subst he
        by_cases hv : v = Memory.unlisted <;> simp [hv, ha] <;> simpa using h.2
      · simp [hab, he, h.1]
        simpa using ih h.2

theorem cellsWf_write {l : List Host.Cell} (h : cellsWf l = true) (a : Nat) (v : Byte) :
    cellsWf (cellsWrite l a v) = true := by
  induction l with
  | nil => by_cases hv : v = Memory.unlisted <;> simp [cellsWrite, cellsWf, hv]
  | cons d t ih =>
    obtain ⟨b, w⟩ := d
    have h0 := h
    simp only [cellsWf, Bool.and_eq_true, bne_iff_ne, ne_eq] at h
    obtain ⟨⟨hw, hall⟩, ht⟩ := h
    unfold cellsWrite
    by_cases hab : a < b
    · by_cases hv : v = Memory.unlisted
      · simpa [hab, hv] using h0
      · have hlt : t.all (fun c => decide (a < c.1)) = true := by
          simp only [List.all_eq_true, decide_eq_true_eq] at hall ⊢
          exact fun c hc => Nat.lt_trans hab (hall c hc)
        simp only [hab, hv, if_true, if_false]
        simp only [cellsWf, List.all_cons, Bool.and_eq_true, bne_iff_ne, ne_eq, decide_eq_true_eq]
        exact ⟨⟨hv, hab, hlt⟩, ⟨hw, hall⟩, ht⟩
    · by_cases he : a = b
      · subst he
        by_cases hv : v = Memory.unlisted
        · simpa [hv] using ht
        · simp only [Nat.lt_irrefl, hv, if_true, if_false]
          simp only [cellsWf, Bool.and_eq_true, bne_iff_ne, ne_eq]
          exact ⟨⟨hv, hall⟩, ht⟩
      · simp only [hab, he, if_false]
        simp only [cellsWf, Bool.and_eq_true, bne_iff_ne, ne_eq]
        refine ⟨⟨hw, ?_⟩, ih ht⟩
        exact cellsWrite_all (p := fun n => decide (b < n)) hall (by simpa using by omega) v

theorem cells_eq_of_read {l : List Host.Cell} : ∀ {k : List Host.Cell}, cellsWf l = true → cellsWf k = true →
    (∀ a, cellsRead l a = cellsRead k a) → l = k := by
  induction l with
  | nil =>
    intro k _ hk h
    cases k with
    | nil => rfl
    | cons c t =>
      obtain ⟨b, w⟩ := c
      simp only [cellsWf, Bool.and_eq_true, bne_iff_ne, ne_eq] at hk
      have := h b
      simp only [cellsRead, if_true] at this
      exact absurd this.symm hk.1.1
  | cons c t ih =>
    intro k hl hk h
    obtain ⟨b, w⟩ := c
    simp only [cellsWf, Bool.and_eq_true, bne_iff_ne, ne_eq] at hl
    cases k with
    | nil =>
      have := h b
      simp only [cellsRead, if_true] at this
      exact absurd this hl.1.1
    | cons d u =>
      obtain ⟨b', w'⟩ := d
      simp only [cellsWf, Bool.and_eq_true, bne_iff_ne, ne_eq] at hk
      have hb : b = b' := by
        rcases Nat.lt_trichotomy b b' with hlt | he | hgt
        · have hne : b' ≠ b := by omega
          have := h b
          simp only [cellsRead, if_true, hne, if_false, cellsRead_of_all_lt hk.1.2 (Nat.le_of_lt hlt)] at this
          exact absurd this hl.1.1
        · exact he
        · have hne : b ≠ b' := by omega
          have := h b'
          simp only [cellsRead, if_true, hne, if_false, cellsRead_of_all_lt hl.1.2 (Nat.le_of_lt hgt)] at this
          exact absurd this.symm hk.1.1
      subst hb
      have hw : w = w' := by simpa [cellsRead] using h b
      subst hw
      congr 1
      refine ih hl.2 hk.2 fun a => ?_
      by_cases ha : b = a
      · subst ha
        rw [cellsRead_of_all_lt hl.1.2 (Nat.le_refl b), cellsRead_of_all_lt hk.1.2 (Nat.le_refl b)]
      · simpa [cellsRead, ha] using h a

/-! ## One byte of a memory -/

theorem Memory.read_write_same {m : Memory} (h : m.wf = true) (a : Nat) (v : Byte) : (m.write a v).read a = v :=
  cellsRead_write_same h a v

theorem Memory.read_write_other (m : Memory) {a c : Nat} (h : c ≠ a) (v : Byte) :
    (m.write a v).read c = m.read c :=
  cellsRead_write_other m.cells h v

/-- A write keeps the canonical form. -/
theorem Memory.wf_write {m : Memory} (h : m.wf = true) (a : Nat) (v : Byte) : (m.write a v).wf = true :=
  cellsWf_write h a v

/-- A write inside a capacity keeps the listing inside it. -/
theorem Memory.within_write {m : Memory} {n a : Nat} (h : m.within n = true) (ha : a < n) (v : Byte) :
    (m.write a v).within n = true :=
  cellsWrite_all (p := fun k => decide (k < n)) h (by simpa using ha) v

/-- Two canonical memories with the same contents are the same data. -/
theorem Memory.eq_of_read {m n : Memory} (hm : m.wf = true) (hn : n.wf = true) (h : ∀ a, m.read a = n.read a) :
    m = n := by
  obtain ⟨l⟩ := m
  obtain ⟨k⟩ := n
  exact congrArg Memory.mk (cells_eq_of_read hm hn h)

@[simp] theorem Memory.wf_empty : Memory.wf ⟨[]⟩ = true := rfl

@[simp] theorem Memory.within_empty (n : Nat) : Memory.within ⟨[]⟩ n = true := rfl

@[simp] theorem Memory.read_empty (a : Nat) : Memory.read ⟨[]⟩ a = Memory.unlisted := rfl

/-! ## One word -/

theorem shift_or_eq_add {x y : Nat} (n : Nat) (h : y < 2 ^ n) : x * 2 ^ n ||| y = x * 2 ^ n + y := by
  rw [Nat.mul_comm, ← Nat.two_pow_add_eq_or_of_lt h]

/-- The value of a word in terms of its bytes: the lowest address holds the highest bits (20_memory.md R57). -/
theorem wordOfBytes_toNat (b0 b1 b2 b3 : Byte) :
    (wordOfBytes b0 b1 b2 b3).toNat =
      ((b0.toNat * 2 ^ 8 + b1.toNat) * 2 ^ 8 + b2.toNat) * 2 ^ 8 + b3.toNat := by
  simp only [wordOfBytes, BitVec.toNat_append, Nat.shiftLeft_eq]
  rw [shift_or_eq_add 8 b1.isLt, shift_or_eq_add 8 b2.isLt, shift_or_eq_add 8 b3.isLt]

theorem byteOfWord_toNat (w : Word) (k : Nat) : (byteOfWord w k).toNat = w.toNat / 2 ^ (8 * (3 - k)) % 2 ^ 8 := by
  simp [byteOfWord, Nat.shiftRight_eq_div_pow]

/-- A word's four bytes make the word. -/
theorem wordOfBytes_byteOfWord (w : Word) :
    wordOfBytes (byteOfWord w 0) (byteOfWord w 1) (byteOfWord w 2) (byteOfWord w 3) = w := by
  apply BitVec.eq_of_toNat_eq
  simp only [wordOfBytes_toNat, byteOfWord_toNat]
  have := w.isLt
  omega

theorem Memory.wf_writeWord {m : Memory} (h : m.wf = true) (a : Nat) (v : Word) : (m.writeWord a v).wf = true :=
  wf_write (wf_write (wf_write (wf_write h _ _) _ _) _ _) _ _

theorem Memory.within_writeWord {m : Memory} {n a : Nat} (h : m.within n = true) (ha : a + 4 ≤ n) (v : Word) :
    (m.writeWord a v).within n = true :=
  within_write (within_write (within_write (within_write h (by omega) _) (by omega) _) (by omega) _) (by omega) _

/-- The four bytes of a written word, lowest address first (20_memory.md R57, R60). -/
theorem Memory.read_writeWord_inside {m : Memory} (h : m.wf = true) (a : Nat) (v : Word) {k : Nat} (hk : k < 4) :
    (m.writeWord a v).read (a + k) = byteOfWord v k := by
  have h0 := wf_write h a (byteOfWord v 0)
  have h1 := wf_write h0 (a + 1) (byteOfWord v 1)
  have h2 := wf_write h1 (a + 2) (byteOfWord v 2)
  unfold writeWord
  match k, hk with
  | 0, _ =>
    rw [read_write_other _ (by omega), read_write_other _ (by omega), read_write_other _ (by omega),
      Nat.add_zero, read_write_same h]
  | 1, _ => rw [read_write_other _ (by omega), read_write_other _ (by omega), read_write_same h0]
  | 2, _ => rw [read_write_other _ (by omega), read_write_same h1]
  | 3, _ => rw [read_write_same h2]

/-- Every byte outside the written word keeps its value (R60). -/
theorem Memory.read_writeWord_outside (m : Memory) (a : Nat) (v : Word) {b : Nat} (h : b < a ∨ a + 4 ≤ b) :
    (m.writeWord a v).read b = m.read b := by
  unfold writeWord
  rw [read_write_other _ (by omega), read_write_other _ (by omega), read_write_other _ (by omega),
    read_write_other _ (by omega)]

/-- A word read back where it was written (R68). -/
theorem Memory.readWord_writeWord_same {m : Memory} (h : m.wf = true) (a : Nat) (v : Word) :
    (m.writeWord a v).readWord a = v := by
  have e0 := read_writeWord_inside h a v (k := 0) (by decide)
  rw [Nat.add_zero] at e0
  unfold readWord
  rw [e0, read_writeWord_inside h a v (k := 1) (by decide), read_writeWord_inside h a v (k := 2) (by decide),
    read_writeWord_inside h a v (k := 3) (by decide)]
  exact wordOfBytes_byteOfWord v

/-- A word that does not meet the written one keeps its value (R68). -/
theorem Memory.readWord_writeWord_other (m : Memory) (a : Nat) (v : Word) {b : Nat} (h : b + 4 ≤ a ∨ a + 4 ≤ b) :
    (m.writeWord a v).readWord b = m.readWord b := by
  unfold readWord
  rw [read_writeWord_outside m a v (by omega), read_writeWord_outside m a v (by omega),
    read_writeWord_outside m a v (by omega), read_writeWord_outside m a v (by omega)]

end Sys2Proof.Machine
end

