-- ==== Sys2Proof/Laws/Decode.lean ====
section
/-! SUPPORT. The fields of an encoded word, and the spec lemmas of the decoder and the control unit. -/

namespace Sys2Proof

/-! ## The values of the three layouts (30_encoding.md R81 to R83, R103) -/

theorem encodeR_toNat (f : BitVec 6) (rd rs rt : RegIx) :
    (encodeR f rd rs rt).toNat =
      f.toNat * 2 ^ 26 + rs.toNat * 2 ^ 21 + rt.toNat * 2 ^ 16 + rd.toNat * 2 ^ 11 := by
  simp only [encodeR, BitVec.toNat_append, Nat.shiftLeft_eq]
  rw [Machine.shift_or_eq_add 5 rs.isLt, Machine.shift_or_eq_add 5 rt.isLt, Machine.shift_or_eq_add 5 rd.isLt,
    Machine.shift_or_eq_add 11 (0#11).isLt]
  simp only [BitVec.toNat_ofNat]
  omega

theorem encodeI_toNat (f : BitVec 6) (rt rs : RegIx) (imm : BitVec 16) :
    (encodeI f rt rs imm).toNat = f.toNat * 2 ^ 26 + rs.toNat * 2 ^ 21 + rt.toNat * 2 ^ 16 + imm.toNat := by
  simp only [encodeI, BitVec.toNat_append, Nat.shiftLeft_eq]
  rw [Machine.shift_or_eq_add 5 rs.isLt, Machine.shift_or_eq_add 5 rt.isLt, Machine.shift_or_eq_add 16 imm.isLt]
  omega

theorem encodeJ_toNat (f : BitVec 6) (imm : BitVec 26) :
    (encodeJ f imm).toNat = f.toNat * 2 ^ 26 + imm.toNat := by
  simp only [encodeJ, BitVec.toNat_append, Nat.shiftLeft_eq]
  rw [Machine.shift_or_eq_add 26 imm.isLt]

/-! ## The fields as numbers (R84) -/

theorem fieldFunc_toNat (w : Word) : (fieldFunc w).toNat = w.toNat / 2 ^ 26 := by
  have := w.isLt
  simp only [fieldFunc, BitVec.extractLsb'_toNat, Nat.shiftRight_eq_div_pow]
  omega

theorem fieldRs_toNat (w : Word) : (fieldRs w).toNat = w.toNat / 2 ^ 21 % 2 ^ 5 := by
  simp [fieldRs, Nat.shiftRight_eq_div_pow]

theorem fieldRt_toNat (w : Word) : (fieldRt w).toNat = w.toNat / 2 ^ 16 % 2 ^ 5 := by
  simp [fieldRt, Nat.shiftRight_eq_div_pow]

theorem fieldRd_toNat (w : Word) : (fieldRd w).toNat = w.toNat / 2 ^ 11 % 2 ^ 5 := by
  simp [fieldRd, Nat.shiftRight_eq_div_pow]

theorem fieldImm16_toNat (w : Word) : (fieldImm16 w).toNat = w.toNat % 2 ^ 16 := by
  simp [fieldImm16]

theorem fieldJimm26_toNat (w : Word) : (fieldJimm26 w).toNat = w.toNat % 2 ^ 26 := by
  simp [fieldJimm26]

/-! ## The fields of an encoded word -/

section Fields

variable (f : BitVec 6) (rd rs rt : RegIx) (imm : BitVec 16) (jimm : BitVec 26)

theorem fieldFunc_encodeR : fieldFunc (encodeR f rd rs rt) = f := by
  apply BitVec.eq_of_toNat_eq
  rw [fieldFunc_toNat, encodeR_toNat]
  have := f.isLt; have := rs.isLt; have := rt.isLt; have := rd.isLt
  omega

theorem fieldRs_encodeR : fieldRs (encodeR f rd rs rt) = rs := by
  apply BitVec.eq_of_toNat_eq
  rw [fieldRs_toNat, encodeR_toNat]
  have := rs.isLt; have := rt.isLt; have := rd.isLt
  omega

theorem fieldRt_encodeR : fieldRt (encodeR f rd rs rt) = rt := by
  apply BitVec.eq_of_toNat_eq
  rw [fieldRt_toNat, encodeR_toNat]
  have := rt.isLt; have := rd.isLt
  omega

theorem fieldRd_encodeR : fieldRd (encodeR f rd rs rt) = rd := by
  apply BitVec.eq_of_toNat_eq
  rw [fieldRd_toNat, encodeR_toNat]
  have := rd.isLt
  omega

theorem fieldFunc_encodeI : fieldFunc (encodeI f rt rs imm) = f := by
  apply BitVec.eq_of_toNat_eq
  rw [fieldFunc_toNat, encodeI_toNat]
  have := f.isLt; have := rs.isLt; have := rt.isLt; have := imm.isLt
  omega

theorem fieldRs_encodeI : fieldRs (encodeI f rt rs imm) = rs := by
  apply BitVec.eq_of_toNat_eq
  rw [fieldRs_toNat, encodeI_toNat]
  have := rs.isLt; have := rt.isLt; have := imm.isLt
  omega

theorem fieldRt_encodeI : fieldRt (encodeI f rt rs imm) = rt := by
  apply BitVec.eq_of_toNat_eq
  rw [fieldRt_toNat, encodeI_toNat]
  have := rt.isLt; have := imm.isLt
  omega

theorem fieldImm16_encodeI : fieldImm16 (encodeI f rt rs imm) = imm := by
  apply BitVec.eq_of_toNat_eq
  rw [fieldImm16_toNat, encodeI_toNat]
  have := imm.isLt
  omega

theorem fieldFunc_encodeJ : fieldFunc (encodeJ f jimm) = f := by
  apply BitVec.eq_of_toNat_eq
  rw [fieldFunc_toNat, encodeJ_toNat]
  have := f.isLt; have := jimm.isLt
  omega

theorem fieldJimm26_encodeJ : fieldJimm26 (encodeJ f jimm) = jimm := by
  apply BitVec.eq_of_toNat_eq
  rw [fieldJimm26_toNat, encodeJ_toNat]
  have := jimm.isLt
  omega

end Fields

/-! ## What the decoder answers (R88, R89) -/

/-- The instruction a word decodes to, with the func value that selects it. -/
theorem decode_cases {w : Word} {i : Instr} (h : decode w = .ok i) :
    (fieldFunc w = funcAdd ∧ i = .add (fieldRd w) (fieldRs w) (fieldRt w)) ∨
    (fieldFunc w = funcSub ∧ i = .sub (fieldRd w) (fieldRs w) (fieldRt w)) ∨
    (fieldFunc w = funcLwr ∧ i = .lwr) ∨
    (fieldFunc w = funcAddi ∧ i = .addi (fieldRt w) (fieldRs w) (fieldImm16 w)) ∨
    (fieldFunc w = funcLw ∧ i = .lw (fieldRt w) (fieldRs w) (fieldImm16 w)) ∨
    (fieldFunc w = funcSw ∧ i = .sw (fieldRt w) (fieldRs w) (fieldImm16 w)) ∨
    (fieldFunc w = funcBeq ∧ i = .beq (fieldRt w) (fieldRs w) (fieldImm16 w)) ∨
    (fieldFunc w = funcJ ∧ i = .j (fieldJimm26 w)) := by
  simp only [decode] at h
  repeat' split at h
  all_goals first | (cases h; simp [*]) | (cases h)

/-! ## The control unit's rows (R91) -/

namespace Machine

/-- A word the decoder rejects has the inert vector. -/
theorem control_of_reject {w : Word} {e : DecodeRefusal} (h : decode w = .error e) :
    controlUnit (fieldFunc w) = ctlInert := by
  simp only [decode] at h
  repeat' split at h
  all_goals first | (cases h; done) | (unfold controlUnit; simp [*])

theorem control_add : controlUnit funcAdd = ctlRow true false false false false .add false false true := rfl
theorem control_sub : controlUnit funcSub = ctlRow true false false false false .sub false false true := rfl
theorem control_lwr : controlUnit funcLwr = ctlInert := rfl
theorem control_addi : controlUnit funcAddi = ctlRow false false false false false .add false true true := rfl
theorem control_lw : controlUnit funcLw = ctlRow false false false true true .add false true true := rfl
theorem control_sw : controlUnit funcSw = ctlRow false false false false false .add true true false := rfl
theorem control_beq : controlUnit funcBeq = ctlRow false false true false false .sub false false false := rfl
theorem control_j : controlUnit funcJ = ctlRow false true false false false .add false false false := rfl

/-! ## Running a fetched word -/

theorem runWord_of_decode {ir : Word} {i : Instr} (h : decode ir = .ok i) (s : State) : runWord ir s = exec i s := by
  unfold runWord; rw [h]

theorem runWord_of_reject {ir : Word} {e : DecodeRefusal} (h : decode ir = .error e) (s : State) :
    runWord ir s = .next s.advance := by
  unfold runWord; rw [h]; rfl

end Machine

end Sys2Proof
end

