-- ==== Sys2Proof/Laws/State.lean ====
section
/-! SUPPORT. What each named update leaves in each field of the state, and what a register reads after it. -/

namespace Sys2Proof.Machine

/-! ## writeReg -/

@[simp] theorem State.writeReg_config (s : State) (i : RegIx) (v : Word) :
    (s.writeReg i v).config = s.config := by
  unfold State.writeReg; split <;> rfl

@[simp] theorem State.writeReg_pc (s : State) (i : RegIx) (v : Word) :
    (s.writeReg i v).pc = s.pc := by
  unfold State.writeReg; split <;> rfl

@[simp] theorem State.writeReg_imem (s : State) (i : RegIx) (v : Word) :
    (s.writeReg i v).imem = s.imem := by
  unfold State.writeReg; split <;> rfl

@[simp] theorem State.writeReg_dmem (s : State) (i : RegIx) (v : Word) :
    (s.writeReg i v).dmem = s.dmem := by
  unfold State.writeReg; split <;> rfl

@[simp] theorem State.writeReg_seq (s : State) (i : RegIx) (v : Word) :
    (s.writeReg i v).seq = s.seq := by
  unfold State.writeReg; split <;> rfl

@[simp] theorem State.writeReg_fault (s : State) (i : RegIx) (v : Word) :
    (s.writeReg i v).fault = s.fault := by
  unfold State.writeReg; split <;> rfl

@[simp] theorem State.writeReg_icount (s : State) (i : RegIx) (v : Word) :
    (s.writeReg i v).icount = s.icount := by
  unfold State.writeReg; split <;> rfl

@[simp] theorem State.writeReg_scratch (s : State) (i : RegIx) (v : Word) :
    (s.writeReg i v).scratch = s.scratch := by
  unfold State.writeReg; split <;> rfl

/-! ## commit -/

@[simp] theorem State.commit_config (s : State) (p : Word) :
    (s.commit p).config = s.config := rfl

@[simp] theorem State.commit_regs (s : State) (p : Word) :
    (s.commit p).regs = s.regs := rfl

@[simp] theorem State.commit_pc (s : State) (p : Word) :
    (s.commit p).pc = p := rfl

@[simp] theorem State.commit_imem (s : State) (p : Word) :
    (s.commit p).imem = s.imem := rfl

@[simp] theorem State.commit_dmem (s : State) (p : Word) :
    (s.commit p).dmem = s.dmem := rfl

@[simp] theorem State.commit_seq (s : State) (p : Word) :
    (s.commit p).seq = terminationSeq s.config p (s.icount + 1#64) := rfl

@[simp] theorem State.commit_fault (s : State) (p : Word) :
    (s.commit p).fault = s.fault := rfl

@[simp] theorem State.commit_icount (s : State) (p : Word) :
    (s.commit p).icount = s.icount + 1#64 := rfl

@[simp] theorem State.commit_scratch (s : State) (p : Word) :
    (s.commit p).scratch = s.scratch := rfl

/-! ## advance -/

@[simp] theorem State.advance_config (s : State) :
    (s.advance).config = s.config := rfl

@[simp] theorem State.advance_regs (s : State) :
    (s.advance).regs = s.regs := rfl

@[simp] theorem State.advance_pc (s : State) :
    (s.advance).pc = pcPlusFour s.pc := rfl

@[simp] theorem State.advance_imem (s : State) :
    (s.advance).imem = s.imem := rfl

@[simp] theorem State.advance_dmem (s : State) :
    (s.advance).dmem = s.dmem := rfl

@[simp] theorem State.advance_seq (s : State) :
    (s.advance).seq = terminationSeq s.config (pcPlusFour s.pc) (s.icount + 1#64) := rfl

@[simp] theorem State.advance_fault (s : State) :
    (s.advance).fault = s.fault := rfl

@[simp] theorem State.advance_icount (s : State) :
    (s.advance).icount = s.icount + 1#64 := rfl

@[simp] theorem State.advance_scratch (s : State) :
    (s.advance).scratch = s.scratch := rfl

/-! ## enterFault -/

@[simp] theorem State.enterFault_config (s : State) (c : FaultCode) (a ir : Word) :
    (s.enterFault c a ir).config = s.config := rfl

@[simp] theorem State.enterFault_regs (s : State) (c : FaultCode) (a ir : Word) :
    (s.enterFault c a ir).regs = s.regs := rfl

@[simp] theorem State.enterFault_pc (s : State) (c : FaultCode) (a ir : Word) :
    (s.enterFault c a ir).pc = s.pc := rfl

@[simp] theorem State.enterFault_imem (s : State) (c : FaultCode) (a ir : Word) :
    (s.enterFault c a ir).imem = s.imem := rfl

@[simp] theorem State.enterFault_dmem (s : State) (c : FaultCode) (a ir : Word) :
    (s.enterFault c a ir).dmem = s.dmem := rfl

@[simp] theorem State.enterFault_seq (s : State) (c : FaultCode) (a ir : Word) :
    (s.enterFault c a ir).seq = Seq.faulted := rfl

@[simp] theorem State.enterFault_fault (s : State) (c : FaultCode) (a ir : Word) :
    (s.enterFault c a ir).fault = ⟨c, s.pc, a, ir⟩ := rfl

@[simp] theorem State.enterFault_icount (s : State) (c : FaultCode) (a ir : Word) :
    (s.enterFault c a ir).icount = s.icount := rfl

@[simp] theorem State.enterFault_scratch (s : State) (c : FaultCode) (a ir : Word) :
    (s.enterFault c a ir).scratch = s.scratch := rfl

/-! ## placeWord -/

@[simp] theorem State.placeWord_config (s : State) (w : Word) :
    (s.placeWord w).config = s.config := rfl

@[simp] theorem State.placeWord_regs (s : State) (w : Word) :
    (s.placeWord w).regs = s.regs := rfl

@[simp] theorem State.placeWord_pc (s : State) (w : Word) :
    (s.placeWord w).pc = s.pc := rfl

@[simp] theorem State.placeWord_imem (s : State) (w : Word) :
    (s.placeWord w).imem = s.imem.writeWord s.pc.toNat w := rfl

@[simp] theorem State.placeWord_dmem (s : State) (w : Word) :
    (s.placeWord w).dmem = s.dmem := rfl

@[simp] theorem State.placeWord_seq (s : State) (w : Word) :
    (s.placeWord w).seq = Seq.fetch := rfl

@[simp] theorem State.placeWord_fault (s : State) (w : Word) :
    (s.placeWord w).fault = s.fault := rfl

@[simp] theorem State.placeWord_icount (s : State) (w : Word) :
    (s.placeWord w).icount = s.icount := rfl

@[simp] theorem State.placeWord_scratch (s : State) (w : Word) :
    (s.placeWord w).scratch = s.scratch := rfl

/-! ## assertReset -/

@[simp] theorem State.assertReset_config (s : State) :
    (s.assertReset).config = s.config := rfl

@[simp] theorem State.assertReset_regs (s : State) :
    (s.assertReset).regs = s.regs := rfl

@[simp] theorem State.assertReset_pc (s : State) :
    (s.assertReset).pc = s.pc := rfl

@[simp] theorem State.assertReset_imem (s : State) :
    (s.assertReset).imem = s.imem := rfl

@[simp] theorem State.assertReset_dmem (s : State) :
    (s.assertReset).dmem = s.dmem := rfl

@[simp] theorem State.assertReset_seq (s : State) :
    (s.assertReset).seq = Seq.reset := rfl

@[simp] theorem State.assertReset_fault (s : State) :
    (s.assertReset).fault = FaultRecord.cleared := rfl

@[simp] theorem State.assertReset_icount (s : State) :
    (s.assertReset).icount = s.icount := rfl

@[simp] theorem State.assertReset_scratch (s : State) :
    (s.assertReset).scratch = Scratch.blank := rfl

/-! ## Registers -/

/-- A write to register 0 is discarded (10_state.md R21). -/
@[simp] theorem State.writeReg_zero (s : State) (v : Word) : s.writeReg 0#5 v = s := by
  simp [State.writeReg]

/-- A register holds what was written to it, unless it is register 0. -/
theorem State.readReg_writeReg_same (s : State) {i : RegIx} (v : Word) (hi : i ≠ 0#5) :
    (s.writeReg i v).readReg i = v := by
  simp [State.writeReg, State.readReg, hi]

/-- Every other register keeps its value. -/
theorem State.readReg_writeReg_other (s : State) {i j : RegIx} (v : Word) (h : j ≠ i) :
    (s.writeReg i v).readReg j = s.readReg j := by
  have hn : i.toNat ≠ j.toNat := fun e => h (BitVec.eq_of_toNat_eq e.symm)
  by_cases hi : i = 0#5
  · simp [hi]
  · simp [State.writeReg, State.readReg, hi, hn]

/-- Register 0 keeps its value under every write (R21). -/
@[simp] theorem State.readReg_zero_writeReg (s : State) (i : RegIx) (v : Word) :
    (s.writeReg i v).readReg 0#5 = s.readReg 0#5 := by
  by_cases hi : i = 0#5
  · simp [hi]
  · exact s.readReg_writeReg_other v (Ne.symm hi)

@[simp] theorem State.readReg_commit (s : State) (p : Word) (i : RegIx) :
    (s.commit p).readReg i = s.readReg i := rfl

@[simp] theorem State.readReg_advance (s : State) (i : RegIx) : s.advance.readReg i = s.readReg i := rfl

@[simp] theorem State.readReg_enterFault (s : State) (c : FaultCode) (a ir : Word) (i : RegIx) :
    (s.enterFault c a ir).readReg i = s.readReg i := rfl

@[simp] theorem State.readReg_reset (i : RegIx) : State.reset.readReg i = 0#32 := by
  simp [State.readReg, State.reset]

/-- x[0] is 0 when reset is released (10_state.md R38). -/
@[simp] theorem State.readReg_released_zero (p : Setup) : (State.released p).readReg 0#5 = 0#32 := by
  simp [State.readReg, State.released, regsAtReset]

/-- x[k + 1] is the value the host supplied for it (R38). -/
theorem State.readReg_released_succ (p : Setup) {k : Nat} (hk : k < 31) :
    (State.released p).readReg (BitVec.ofNat 5 (k + 1)) = p.initRegs[k] := by
  have e : (BitVec.ofNat 5 (k + 1)).toNat = k + 1 := by
    rw [BitVec.toNat_ofNat]; omega
  simp [State.readReg, State.released, regsAtReset, e]

/-- `State.reset` is reset released on the setup that supplies zeros, no program and `Config.initial`. -/
theorem State.released_initial : State.released Setup.initial = State.reset := by decide

end Sys2Proof.Machine
end

