-- ==== Sys2Proof/Laws/Ops.lean ====
section
/-! SUPPORT. One lemma for each shared operation that says everything it can do. -/

namespace Sys2Proof.Machine

/-! ## The check of an access (20_memory.md R54 to R56) -/

/-- What the check of one access can answer. -/
theorem accessFault_cases (k : Access) (size : Nat) (a : Word) :
    (wordAligned a = false ∧ accessFault k size a = some (misalignedCode k)) ∨
    (wordAligned a = true ∧ inRange size a = false ∧ accessFault k size a = some (outOfRangeCode k)) ∨
    (wordAligned a = true ∧ inRange size a = true ∧ accessFault k size a = none) := by
  unfold accessFault
  cases wordAligned a <;> cases inRange size a <;> simp

/-- The check passes exactly on an aligned address in range. -/
theorem accessFault_eq_none (k : Access) (size : Nat) (a : Word) :
    accessFault k size a = none ↔ wordAligned a = true ∧ inRange size a = true := by
  unfold accessFault
  cases wordAligned a <;> cases inRange size a <;> simp

theorem inRange_iff (size : Nat) (a : Word) : inRange size a = true ↔ a.toNat + 4 ≤ size := by
  simp [inRange]

/-- `a[1:0] = 0` says that `a` is a multiple of 4. -/
theorem wordAligned_iff (a : Word) : wordAligned a = true ↔ a.toNat % 4 = 0 := by
  simp only [wordAligned, beq_iff_eq, ← BitVec.toNat_inj, BitVec.extractLsb'_toNat, Nat.shiftRight_zero,
    BitVec.toNat_ofNat]

/-! ## The three accesses (R59 to R61) -/

/-- A read that answers gives the word, of an aligned address in range. -/
theorem State.memRead_ok {s : State} {a v : Word} (h : s.memRead a = .ok v) :
    wordAligned a = true ∧ inRange s.config.dmemBytes a = true ∧ v = s.dmem.readWord a.toNat := by
  unfold State.memRead at h
  rcases accessFault_cases .load s.config.dmemBytes a with ⟨_, e⟩ | ⟨_, _, e⟩ | ⟨ha, hr, e⟩ <;> rw [e] at h
  · simp at h
  · simp at h
  · exact ⟨ha, hr, by simpa using h.symm⟩

/-- An aligned read in range answers. -/
theorem State.memRead_of_ok {s : State} {a : Word} (ha : wordAligned a = true)
    (hr : inRange s.config.dmemBytes a = true) : s.memRead a = .ok (s.dmem.readWord a.toNat) := by
  unfold State.memRead
  rw [(accessFault_eq_none .load s.config.dmemBytes a).2 ⟨ha, hr⟩]

/-- A read that faults gives one of the two load codes. -/
theorem State.memRead_error {s : State} {a : Word} {c : FaultCode} (h : s.memRead a = .error c) :
    (wordAligned a = false ∧ c = .loadMisaligned) ∨
    (wordAligned a = true ∧ inRange s.config.dmemBytes a = false ∧ c = .loadOutOfRange) := by
  unfold State.memRead at h
  rcases accessFault_cases .load s.config.dmemBytes a with ⟨ha, e⟩ | ⟨ha, hr, e⟩ | ⟨_, _, e⟩ <;> rw [e] at h
  · exact .inl ⟨ha, by simpa [misalignedCode] using h.symm⟩
  · exact .inr ⟨ha, hr, by simpa [outOfRangeCode] using h.symm⟩
  · simp at h

/-- A write that answers stores the word at an aligned address in range and changes nothing else. -/
theorem State.memWrite_ok {s s' : State} {a v : Word} (h : s.memWrite a v = .ok s') :
    wordAligned a = true ∧ inRange s.config.dmemBytes a = true ∧
      s' = { s with dmem := s.dmem.writeWord a.toNat v } := by
  unfold State.memWrite at h
  rcases accessFault_cases .store s.config.dmemBytes a with ⟨_, e⟩ | ⟨_, _, e⟩ | ⟨ha, hr, e⟩ <;> rw [e] at h
  · simp at h
  · simp at h
  · exact ⟨ha, hr, by simpa using h.symm⟩

/-- An aligned write in range answers. -/
theorem State.memWrite_of_ok {s : State} {a : Word} (v : Word) (ha : wordAligned a = true)
    (hr : inRange s.config.dmemBytes a = true) :
    s.memWrite a v = .ok { s with dmem := s.dmem.writeWord a.toNat v } := by
  unfold State.memWrite
  rw [(accessFault_eq_none .store s.config.dmemBytes a).2 ⟨ha, hr⟩]

/-- A write that faults gives one of the two store codes. -/
theorem State.memWrite_error {s : State} {a v : Word} {c : FaultCode} (h : s.memWrite a v = .error c) :
    (wordAligned a = false ∧ c = .storeMisaligned) ∨
    (wordAligned a = true ∧ inRange s.config.dmemBytes a = false ∧ c = .storeOutOfRange) := by
  unfold State.memWrite at h
  rcases accessFault_cases .store s.config.dmemBytes a with ⟨ha, e⟩ | ⟨ha, hr, e⟩ | ⟨_, _, e⟩ <;> rw [e] at h
  · exact .inl ⟨ha, by simpa [misalignedCode] using h.symm⟩
  · exact .inr ⟨ha, hr, by simpa [outOfRangeCode] using h.symm⟩
  · simp at h

/-- A fetch that answers gives the word, of an aligned address in range. -/
theorem State.imemRead_ok {s : State} {a v : Word} (h : s.imemRead a = .ok v) :
    wordAligned a = true ∧ inRange s.config.imemBytes a = true ∧ v = s.imem.readWord a.toNat := by
  unfold State.imemRead at h
  rcases accessFault_cases .fetch s.config.imemBytes a with ⟨_, e⟩ | ⟨_, _, e⟩ | ⟨ha, hr, e⟩ <;> rw [e] at h
  · simp at h
  · simp at h
  · exact ⟨ha, hr, by simpa using h.symm⟩

/-- A fetch that faults gives one of the two fetch codes. -/
theorem State.imemRead_error {s : State} {a : Word} {c : FaultCode} (h : s.imemRead a = .error c) :
    (wordAligned a = false ∧ c = .fetchMisaligned) ∨
    (wordAligned a = true ∧ inRange s.config.imemBytes a = false ∧ c = .fetchOutOfRange) := by
  unfold State.imemRead at h
  rcases accessFault_cases .fetch s.config.imemBytes a with ⟨ha, e⟩ | ⟨ha, hr, e⟩ | ⟨_, _, e⟩ <;> rw [e] at h
  · exact .inl ⟨ha, by simpa [misalignedCode] using h.symm⟩
  · exact .inr ⟨ha, hr, by simpa [outOfRangeCode] using h.symm⟩
  · simp at h

/-! ## The termination check (40_datapath.md R132) -/

/-- What the termination check can answer, and when. -/
theorem terminationSeq_cases (c : Config) (pc : Word) (n : BitVec 64) :
    (c.sentinel ≤ pc ∧ terminationSeq c pc n = .haltedSentinel) ∨
    (pc < c.sentinel ∧ pc = 0#32 ∧ terminationSeq c pc n = .haltedLoop) ∨
    (pc < c.sentinel ∧ pc ≠ 0#32 ∧ limitReached c n = true ∧ terminationSeq c pc n = .stoppedLimit) ∨
    (pc < c.sentinel ∧ pc ≠ 0#32 ∧ limitReached c n = false ∧ terminationSeq c pc n = .fetch) := by
  unfold terminationSeq
  by_cases h : c.sentinel ≤ pc
  · exact .inl ⟨h, by simp [h]⟩
  · have hlt : pc < c.sentinel := BitVec.not_le.1 h
    by_cases h0 : pc = 0#32
    · exact .inr (.inl ⟨hlt, h0, by simp [h0] at h ⊢; simp [h]⟩)
    · cases hl : limitReached c n <;> simp [h, h0, hlt]

/-- A commit never leaves the core in RESET, inside a step, or FAULTED. -/
theorem terminationSeq_ne_faulted (c : Config) (pc : Word) (n : BitVec 64) : terminationSeq c pc n ≠ .faulted := by
  rcases terminationSeq_cases c pc n with ⟨_, e⟩ | ⟨_, _, e⟩ | ⟨_, _, _, e⟩ | ⟨_, _, _, e⟩ <;> rw [e] <;> decide

end Sys2Proof.Machine
end

