-- ==== Sys2Proof/Laws/Exec.lean ====
section
/-! SUPPORT. What an instruction, a step, the rest of a step under way and a program load can do, each said once. -/

namespace Sys2Proof.Machine

/-! ## One instruction -/

/-- A data access of LW or SW at `a` that faults with `c` (60_exceptions.md R181). -/
def AccessFaults (s : State) (a : Word) (misaligned outOfRange c : FaultCode) : Prop :=
  (wordAligned a = false ∧ c = misaligned) ∨
  (wordAligned a = true ∧ inRange s.config.dmemBytes a = false ∧ c = outOfRange)

/-- The pc an instruction commits (40_datapath.md R129). -/
def CommitsPc (i : Instr) (s : State) (p : Word) : Prop :=
  p = s.pc + 4#32 ∨
  (∃ rt rs imm, i = .beq rt rs imm ∧ p = (s.pc + 4#32) + (imm.signExtend 32 <<< 2)) ∨
  (∃ imm, i = .j imm ∧ p = ((s.pc + 4#32) &&& 0xF0000000#32) ||| (imm.setWidth 32 <<< 2))

/-- An instruction writes its destination register and commits with pc + 4; or only commits; or, SW alone, stores one
word and commits with pc + 4; or, LW and SW alone, takes a data fault. -/
theorem exec_cases (i : Instr) (s : State) :
    (∃ rd v, destination i = some rd ∧ exec i s = .next ((s.writeReg rd v).commit (s.pc + 4#32))) ∨
    (∃ p, exec i s = .next (s.commit p) ∧ (∀ rt rs imm, i ≠ .sw rt rs imm) ∧ CommitsPc i s p) ∨
    (∃ rt rs imm, i = .sw rt rs imm ∧ wordAligned (s.effectiveAddr rs imm) = true ∧
      inRange s.config.dmemBytes (s.effectiveAddr rs imm) = true ∧
      exec i s = .next
        (({ s with dmem := s.dmem.writeWord (s.effectiveAddr rs imm).toNat (s.readReg rt) } : State).commit
          (s.pc + 4#32))) ∨
    (∃ rt rs imm c,
      ((i = .lw rt rs imm ∧ AccessFaults s (s.effectiveAddr rs imm) .loadMisaligned .loadOutOfRange c) ∨
        (i = .sw rt rs imm ∧ AccessFaults s (s.effectiveAddr rs imm) .storeMisaligned .storeOutOfRange c)) ∧
      exec i s = .next (s.enterFault c (s.effectiveAddr rs imm) s.scratch.ir)) := by
  cases i with
  | add rd rs rt =>
    exact .inl ⟨rd, aluOut .add (s.readReg rs) (s.readReg rt), rfl, by
      simp only [exec, execAdd, State.advance, State.writeReg_pc, pcPlusFour]⟩
  | sub rd rs rt =>
    exact .inl ⟨rd, aluOut .sub (s.readReg rs) (s.readReg rt), rfl, by
      simp only [exec, execSub, State.advance, State.writeReg_pc, pcPlusFour]⟩
  | addi rt rs imm =>
    exact .inl ⟨rt, aluOut .add (s.readReg rs) (signExtImm imm), rfl, by
      simp only [exec, execAddi, State.advance, State.writeReg_pc, pcPlusFour]⟩
  | lwr => exact .inr (.inl ⟨_, rfl, by simp, .inl rfl⟩)
  | j imm => exact .inr (.inl ⟨_, rfl, by simp, .inr (.inr ⟨imm, rfl, rfl⟩)⟩)
  | beq rt rs imm =>
    refine .inr (.inl ?_)
    simp only [exec, execBeq]
    split
    · exact ⟨_, rfl, by simp, .inr (.inl ⟨rt, rs, imm, rfl, rfl⟩)⟩
    · exact ⟨_, rfl, by simp, .inl rfl⟩
  | lw rt rs imm =>
    simp only [exec, execLw]
    split
    · rename_i c h
      exact .inr (.inr (.inr ⟨rt, rs, imm, c, .inl ⟨rfl, State.memRead_error h⟩, rfl⟩))
    · rename_i v _
      exact .inl ⟨rt, v, rfl, by simp only [State.advance, State.writeReg_pc, pcPlusFour]⟩
  | sw rt rs imm =>
    simp only [exec, execSw]
    split
    · rename_i c h
      exact .inr (.inr (.inr ⟨rt, rs, imm, c, .inr ⟨rfl, State.memWrite_error h⟩, rfl⟩))
    · rename_i s' h
      obtain ⟨ha, hr, rfl⟩ := State.memWrite_ok h
      exact .inr (.inr (.inl ⟨rt, rs, imm, rfl, ha, hr, rfl⟩))

/-! ## One step -/

/-- A step from FETCH takes a fetch fault, or runs the decoded instruction, or runs a word with an unrecognized func
as a no-op. -/
theorem step_fetch_cases {s : State} (h : s.seq = .fetch) :
    (∃ c, s.imemRead s.pc = .error c ∧
      step s = .next (({ s with scratch := Scratch.start s.pc }).enterFault c s.pc 0#32)) ∨
    (∃ ir i, s.imemRead s.pc = .ok ir ∧ decode ir = .ok i ∧
      step s = exec i { s with scratch := stepRecord s ir }) ∨
    (∃ ir e, s.imemRead s.pc = .ok ir ∧ decode ir = .error e ∧
      step s = .next ({ s with scratch := stepRecord s ir }).advance) := by
  simp only [step, h, stepInstr]
  cases hf : s.imemRead s.pc with
  | error c => exact .inl ⟨c, rfl, rfl⟩
  | ok ir =>
    cases hd : decode ir with
    | ok i => exact .inr (.inl ⟨ir, i, rfl, hd, runWord_of_decode hd _⟩)
    | error e => exact .inr (.inr ⟨ir, e, rfl, hd, runWord_of_reject hd _⟩)

/-- MEMORY goes on to WRITEBACK or faults (40_datapath.md R120). -/
theorem stageMemory_seq (s : State) : (stageMemory s).seq = .writeback ∨ (stageMemory s).seq = .faulted := by
  unfold stageMemory; split <;> simp

/-- What is left of a step that stands in DECODE: four sub-stages, and WRITEBACK unless MEMORY faults. -/
theorem finishStep_decode {s : State} (h : s.seq = .decode) :
    finishStep 5 s =
      if (stageMemory (stageExecute (stageRegread (stageDecode s)))).seq = .writeback then
        stageWriteback (stageMemory (stageExecute (stageRegread (stageDecode s))))
      else stageMemory (stageExecute (stageRegread (stageDecode s))) := by
  have hm := stageMemory_seq (stageExecute (stageRegread (stageDecode s)))
  unfold finishStep
  simp only [h, Seq.midStep, stage, if_true]
  unfold finishStep
  simp only [show (stageDecode s).seq = .regread from rfl, Seq.midStep, stage, if_true]
  unfold finishStep
  simp only [show (stageRegread (stageDecode s)).seq = .execute from rfl, Seq.midStep, stage, if_true]
  unfold finishStep
  simp only [show (stageExecute (stageRegread (stageDecode s))).seq = .memory from rfl, Seq.midStep, stage, if_true]
  generalize stageMemory (stageExecute (stageRegread (stageDecode s))) = e at hm ⊢
  rcases hm with hm | hm
  · unfold finishStep
    simp only [hm, stage, if_true]
    rfl
  · unfold finishStep
    simp only [hm]
    rfl

/-! ## The host's setup -/

/-- A program load keeps the canonical form, changes only the program's bytes, and writes them big-endian
(20_memory.md R67). -/
theorem loadWords_spec (ws : List Word) : ∀ (m : Memory) (a : Nat), m.wf = true →
    (loadWords m a ws).wf = true ∧
    (∀ b, b < a ∨ a + 4 * ws.length ≤ b → (loadWords m a ws).read b = m.read b) ∧
    (∀ (k : Nat) (h : k < ws.length) (j : Nat), j < 4 →
      (loadWords m a ws).read (a + 4 * k + j) = byteOfWord ws[k] j) ∧
    (∀ n, m.within n = true → a + 4 * ws.length ≤ n → (loadWords m a ws).within n = true) := by
  induction ws with
  | nil => intro m a h; simp [loadWords, h]; intros; assumption
  | cons w ws ih =>
    intro m a h
    obtain ⟨h1, h2, h3, h4⟩ := ih (m.writeWord a w) (a + 4) (Memory.wf_writeWord h a w)
    refine ⟨h1, ?_, ?_, ?_⟩
    · intro b hb
      simp only [List.length_cons] at hb
      show (loadWords (m.writeWord a w) (a + 4) ws).read b = _
      rw [h2 b (by omega), Memory.read_writeWord_outside m a w (by omega)]
    · intro k hk j hj
      show (loadWords (m.writeWord a w) (a + 4) ws).read _ = _
      cases k with
      | zero =>
        rw [h2 _ (by omega)]
        exact Memory.read_writeWord_inside h a w hj
      | succ k =>
        have e : a + 4 * (k + 1) + j = (a + 4) + 4 * k + j := by omega
        rw [e, h3 k (by simpa using hk) j hj]; rfl
    · intro n hn hl
      simp only [List.length_cons] at hl
      exact h4 n (Memory.within_writeWord hn (by omega) w) (by omega)

/-- The parts of a legal setup. -/
theorem Setup.wf_parts {p : Setup} (h : p.wf = true) :
    p.config.wf = true ∧ 4 * p.program.length ≤ p.config.imemBytes ∧
    (p.initDmem.wf = true ∧ p.initDmem.within p.config.dmemBytes = true) ∧
    (p.imemInit.wf = true ∧ p.imemInit.within p.config.imemBytes = true) := by
  simp only [Setup.wf, Bool.and_eq_true, decide_eq_true_eq] at h
  exact ⟨h.1.1.1, h.1.1.2, h.1.2, h.2⟩

end Sys2Proof.Machine
end

