-- ==== Sys2Proof/Laws/PerInstr.lean ====
section
/-! SUPPORT. Statements made for each instruction: its word lies under its row of spec/opcode_table.json. -/

namespace Sys2Proof.Laws.TableRow

/-- The "match" column of spec/opcode_table.json; every row's "mask" is 0xFC000000. -/
def tableMatch : Instr → Word
  | .add .. => 0x00000000#32
  | .sub .. => 0x04000000#32
  | .lwr => 0x08000000#32
  | .addi .. => 0x14000000#32
  | .lw .. => 0x20000000#32
  | .sw .. => 0x24000000#32
  | .beq .. => 0x30000000#32
  | .j .. => 0x3C000000#32

/-- The instruction's word, under the mask, is the match value of its row. -/
def Statement (i : Instr) : Prop := encode i &&& 0xFC000000#32 = tableMatch i

/-- The mask keeps the func field (30_encoding.md R84). -/
theorem and_mask (w : Word) : w &&& 0xFC000000#32 = (fieldFunc w ++ 0#26 : BitVec (6 + 26)) := by
  apply BitVec.eq_of_getLsbD_eq
  intro k hk
  simp only [fieldFunc, BitVec.getLsbD_and, BitVec.getLsbD_append, BitVec.getLsbD_extractLsb']
  interval_cases k <;> simp

theorem add (rd rs rt : RegIx) : Statement (.add rd rs rt) := by
  unfold Statement; rw [and_mask, encode, fieldFunc_encodeR]; rfl

theorem sub (rd rs rt : RegIx) : Statement (.sub rd rs rt) := by
  unfold Statement; rw [and_mask, encode, fieldFunc_encodeR]; rfl

theorem lwr : Statement .lwr := by
  unfold Statement; rw [and_mask, encode, fieldFunc_encodeJ]; rfl

theorem addi (rt rs : RegIx) (imm : BitVec 16) : Statement (.addi rt rs imm) := by
  unfold Statement; rw [and_mask, encode, fieldFunc_encodeI]; rfl

theorem lw (rt rs : RegIx) (imm : BitVec 16) : Statement (.lw rt rs imm) := by
  unfold Statement; rw [and_mask, encode, fieldFunc_encodeI]; rfl

theorem sw (rt rs : RegIx) (imm : BitVec 16) : Statement (.sw rt rs imm) := by
  unfold Statement; rw [and_mask, encode, fieldFunc_encodeI]; rfl

theorem beq (rt rs : RegIx) (imm : BitVec 16) : Statement (.beq rt rs imm) := by
  unfold Statement; rw [and_mask, encode, fieldFunc_encodeI]; rfl

theorem j (imm : BitVec 26) : Statement (.j imm) := by
  unfold Statement; rw [and_mask, encode, fieldFunc_encodeJ]; rfl

end Sys2Proof.Laws.TableRow
end

