-- ==== Sys2Proof/Tests/Slice0.lean ====
section
/-! SUPPORT. Tests: what WellFormed refuses, words decoded bit by bit, the vectors of spec/95_test_vectors.md (named
in each comment), and a witness for the hypotheses of every obligation that has some (`test_hyp_<obligation>`). -/

namespace Sys2Proof.Tests

open Machine

/-! ## Helpers -/

/-- The configuration of 95_test_vectors.md section 2. -/
def vectorConfig : Config := ⟨2 ^ 32, 256, 0xFFFFFFFF#32, none⟩

/-- A small configuration: both memories 256 bytes, SENTINEL 0x100, as in section 3. -/
def programConfig : Config := ⟨256, 256, 0x100#32, none⟩

/-- A state in FETCH with some registers, some bytes of data memory, and one word at pc. -/
def start (c : Config) (pc : Word) (w : Nat) (regs : List (RegIx × Word)) (bytes : List (Nat × Byte)) : State :=
  let s : State := { State.reset with config := c, pc := pc }
  let s := regs.foldl (fun s r => s.writeReg r.1 r.2) s
  let s : State := { s with dmem := bytes.foldl (fun m b => m.write b.1 b.2) ⟨[]⟩ }
  s.withFetchWord 32 w

/-- The start state of most vectors: section 2's configuration, pc 0. -/
def atZero (w : Nat) (regs : List (RegIx × Word)) (bytes : List (Nat × Byte)) : State :=
  start vectorConfig 0#32 w regs bytes

/-- The outcome is a next state with the property. -/
def answers (o : Host.Outcome State Fault Refusal) (p : State → Bool) : Bool :=
  match nextState? o with
  | some t => p t
  | none => false

theorem exists_of_answers {o : Host.Outcome State Fault Refusal} {p : State → Bool} (h : answers o p = true) :
    ∃ t : State, o = .next t ∧ p t = true := by
  cases o with
  | next t => exact ⟨t, rfl, h⟩
  | fault r => cases h
  | refused r => cases h

/-- One step ends in the property. -/
def after (s : State) (p : State → Bool) : Bool := answers (step s) p

/-- pc, icount and seq after a step. -/
def ends (t : State) (pc : Word) (icount : BitVec 64) (seq : Seq) : Bool :=
  t.pc == pc && t.icount == icount && t.seq == seq

/-- The four bytes of data memory at `a`. -/
def bytesAt (t : State) (a : Nat) : List Byte :=
  [t.dmem.read a, t.dmem.read (a + 1), t.dmem.read (a + 2), t.dmem.read (a + 3)]

/-- DE AD BE EF at 16 (vectors M1, M2). -/
def deadBeef : List (Nat × Byte) := [(16, 0xDE#8), (17, 0xAD#8), (18, 0xBE#8), (19, 0xEF#8)]

/-! ## What WellFormed refuses -/

theorem test_size_not_multiple_of_4 : sizeLegal 6 = false := by decide
theorem test_size_too_small : sizeLegal 0 = false := by decide
theorem test_size_too_large : sizeLegal (2 ^ 32 + 4) = false := by decide
theorem test_size_bounds : sizeLegal 4 = true ∧ sizeLegal (2 ^ 32) = true := by decide
theorem test_config_imem_illegal : Config.wf ⟨6, 256, 0x100#32, none⟩ = false := by decide
theorem test_config_dmem_illegal : Config.wf ⟨256, 2, 0x100#32, none⟩ = false := by decide
theorem test_config_sentinel_zero : Config.wf ⟨256, 256, 0#32, none⟩ = false := by decide
theorem test_config_limit_zero : Config.wf ⟨256, 256, 0x100#32, some 0⟩ = false := by decide
theorem test_config_legal :
    Config.initial.wf = true ∧ vectorConfig.wf = true ∧ Config.wf ⟨8, 4, 1#32, some 1⟩ = true := by decide

theorem test_op_wrong_count_r : AsmOp.legal ⟨.add, [3, 1]⟩ = false := by decide
theorem test_op_wrong_count_i : AsmOp.legal ⟨.lw, [3, 1, 0, 0]⟩ = false := by decide
theorem test_op_wrong_count_j : AsmOp.legal ⟨.j, []⟩ = false := by decide
theorem test_op_register_32 : AsmOp.legal ⟨.add, [32, 1, 2]⟩ = false := by decide
theorem test_op_register_negative : AsmOp.legal ⟨.sub, [3, -1, 2]⟩ = false := by decide
theorem test_op_register_i : AsmOp.legal ⟨.addi, [3, 32, 2]⟩ = false := by decide
theorem test_op_imm16_above : AsmOp.legal ⟨.addi, [1, 0, 32768]⟩ = false := by decide
theorem test_op_imm16_below : AsmOp.legal ⟨.beq, [1, 0, -32769]⟩ = false := by decide
theorem test_op_imm26_above : AsmOp.legal ⟨.j, [33554432]⟩ = false := by decide
theorem test_op_imm26_below : AsmOp.legal ⟨.j, [-33554433]⟩ = false := by decide
theorem test_op_legal_bounds :
    AsmOp.legal ⟨.sub, [31, 0, 31]⟩ = true ∧ AsmOp.legal ⟨.sw, [0, 31, -32768]⟩ = true ∧
    AsmOp.legal ⟨.lw, [0, 31, 32767]⟩ = true ∧ AsmOp.legal ⟨.j, [-33554432]⟩ = true := by decide

theorem test_memory_unsorted : Memory.wf ⟨[(4, 1#8), (3, 1#8)]⟩ = false := by decide
theorem test_memory_repeated : Memory.wf ⟨[(4, 1#8), (4, 2#8)]⟩ = false := by decide
theorem test_memory_lists_unlisted_value : Memory.wf ⟨[(4, 0#8)]⟩ = false := by decide
theorem test_memory_outside : Memory.within ⟨[(256, 1#8)]⟩ 256 = false := by decide

/-- A legal setup: one word, registers and a byte of data memory set by the host. -/
def oneWordSetup : Setup where
  config := programConfig
  program := [0x00221800#32]
  initRegs := (Vector.replicate 31 0xFFFFFFFF#32).set 0 5#32
  initDmem := ⟨[(255, 7#8)]⟩
  imemInit := ⟨[(0, 9#8), (255, 1#8)]⟩

theorem test_setup_legal : oneWordSetup.wf = true := by decide
theorem test_setup_program_too_long :
    Setup.wf { oneWordSetup with config := ⟨4, 256, 0x100#32, none⟩, program := [0#32, 0#32], imemInit := ⟨[]⟩ } = false :=
  by decide
theorem test_setup_dmem_outside : Setup.wf { oneWordSetup with initDmem := ⟨[(256, 7#8)]⟩ } = false := by decide
theorem test_setup_imem_not_canonical : Setup.wf { oneWordSetup with imemInit := ⟨[(1, 0#8)]⟩ } = false := by decide
theorem test_setup_config_illegal :
    Setup.wf { oneWordSetup with config := ⟨256, 256, 0#32, none⟩ } = false := by decide

/-! ## Decoding: words written out from the encodings of 30_encoding.md R81 to R83 -/

/-- R140: 000000 rs=1 rt=2 rd=3, unused bits all 1. -/
theorem test_decode_add : decode 0b000000_00001_00010_00011_11111111111#32 = .ok (.add 3 1 2) := by decide
/-- R141: 000001 rs=31 rt=2 rd=16. -/
theorem test_decode_sub : decode 0b000001_11111_00010_10000_00000000000#32 = .ok (.sub 16 31 2) := by decide
/-- R170: 000010, 26 open bits. -/
theorem test_decode_lwr : decode 0b000010_00001_00010_0001100000000001#32 = .ok .lwr := by decide
/-- R142: 000101 rs=0 rt=2 imm=-7. -/
theorem test_decode_addi : decode 0b000101_00000_00010_1111111111111001#32 = .ok (.addi 2 0 0xFFF9) := by decide
/-- R150: 001000 rs=1 rt=4 imm=0x8000. -/
theorem test_decode_lw : decode 0b001000_00001_00100_1000000000000000#32 = .ok (.lw 4 1 0x8000) := by decide
/-- R151: 001001 rs=2 rt=3 imm=1. -/
theorem test_decode_sw : decode 0b001001_00010_00011_0000000000000001#32 = .ok (.sw 3 2 1) := by decide
/-- R160: 001100 rs=2 rt=1 imm=4. -/
theorem test_decode_beq : decode 0b001100_00010_00001_0000000000000100#32 = .ok (.beq 1 2 4) := by decide
/-- R161: 001111 jimm26 with its top and bottom bits set. -/
theorem test_decode_j : decode 0b001111_10000000000000000000000001#32 = .ok (.j 0x2000001) := by decide
/-- R171: func 63 and func 3 are in no row. -/
theorem test_decode_unrecognized :
    decode 0xFC000000#32 = .error (.unrecognizedFunc 63) ∧ decode 0x0C000000#32 = .error (.unrecognizedFunc 3) := by
  decide
/-- R57, R80: bytes in memory order, the rest handed back, fewer than four refused. -/
theorem test_decode_bytes :
    decodeBytes [0x14#8, 0x02#8, 0xFF#8, 0xF9#8, 0xAA#8] = .ok (.addi 2 0 0xFFF9, [0xAA#8]) ∧
    decodeBytes [0x14#8, 0x02#8, 0xFF#8] = .error .truncated := by decide
/-- The host's view of the decoder. -/
theorem test_decode_table_word :
    decodeTableWord 32 0x00221800 = some (.add 3 1 2) ∧ decodeTableWord 32 0x3FFFFFFF = some (.j 0x3FFFFFF) ∧
    decodeTableWord 32 0xFC000000 = none := by decide

/-- Vectors X1, X2, X3, X5: the fields DECODE extracts. -/
theorem test_fields :
    (fieldFunc 0x00221800#32 = 0 ∧ fieldRs 0x00221800#32 = 1 ∧ fieldRt 0x00221800#32 = 2 ∧
      fieldRd 0x00221800#32 = 3 ∧ fieldJimm26 0x00221800#32 = 0x0221800) ∧
    (fieldRd 0x1402FFF9#32 = 31 ∧ signExtImm (fieldImm16 0x1402FFF9#32) = 0xFFFFFFF9) ∧
    (fieldFunc 0x3FFFFFFF#32 = 15 ∧ fieldJimm26 0x3FFFFFFF#32 = 0x3FFFFFF) ∧
    (fieldRd 0x14018000#32 = 16 ∧ signExtImm (fieldImm16 0x14018000#32) = 0xFFFF8000) := by decide

/-! ## The instructions, one step each -/

/-- A2, A3: signed overflow and unsigned carry wrap. -/
theorem test_add_wraps :
    after (atZero 0x00221800 [(1, 0x7FFFFFFF), (2, 1)] []) (fun t => t.readReg 3 == 0x80000000 && ends t 4 1 .fetch) ∧
    after (atZero 0x00221800 [(1, 0xFFFFFFFF), (2, 1)] []) (fun t => t.readReg 3 == 0) := by decide
/-- A4, A5: rd = 0 discards, rd = rs = rt reads before it writes. -/
theorem test_add_destination :
    after (atZero 0x00220000 [(1, 5), (2, 7)] []) (fun t => t.readReg 0 == 0 && t.readReg 1 == 5) ∧
    after (atZero 0x00210800 [(1, 0x40000000)] []) (fun t => t.readReg 1 == 0x80000000) := by decide
/-- S1, S2: the order of the operands, overflow. -/
theorem test_sub_order :
    after (atZero 0x04221800 [(1, 5), (2, 7)] []) (fun t => t.readReg 3 == 0xFFFFFFFE && ends t 4 1 .fetch) ∧
    after (atZero 0x04221800 [(1, 0x80000000), (2, 1)] []) (fun t => t.readReg 3 == 0x7FFFFFFF) := by decide
/-- S5: minus a negative, another destination. -/
theorem test_sub_minus_negative :
    after (atZero 0x04222000 [(1, 5), (2, 0xFFFFFFF9)] []) (fun t => t.readReg 4 == 12 && t.readReg 3 == 0) := by
  decide
/-- I3, I4: the two ends of the immediate. -/
theorem test_addi_sign_extends :
    after (atZero 0x14018000 [] []) (fun t => t.readReg 1 == 0xFFFF8000 && ends t 4 1 .fetch) ∧
    after (atZero 0x14017FFF [] []) (fun t => t.readReg 1 == 0x00007FFF) := by decide
/-- I5, I6: overflow, rt = 0. -/
theorem test_addi_wraps_and_discards :
    after (atZero 0x14220001 [(1, 0x7FFFFFFF)] []) (fun t => t.readReg 2 == 0x80000000) ∧
    after (atZero 0x14200005 [(1, 9)] []) (fun t => t.readReg 0 == 0) := by decide
/-- M1, M2, M9: big-endian, a negative offset, rt = rs. -/
theorem test_lw_word :
    after (atZero 0x20220000 [(1, 0x10)] deadBeef) (fun t => t.readReg 2 == 0xDEADBEEF && ends t 4 1 .fetch) ∧
    after (atZero 0x2022FFFC [(1, 0x14)] deadBeef) (fun t => t.readReg 2 == 0xDEADBEEF) ∧
    after (atZero 0x20210000 [(1, 0x10)] [(19, 7)]) (fun t => t.readReg 1 == 7) := by decide
/-- M4, M5, M6, M7: misaligned, one past the end, both, wrapped below 0. -/
theorem test_lw_faults :
    after (atZero 0x20220012 [] []) (fun t => t.fault == ⟨.loadMisaligned, 0, 0x12, 0x20220012⟩ && ends t 0 0 .faulted) ∧
    after (atZero 0x20220100 [] []) (fun t => t.fault == ⟨.loadOutOfRange, 0, 0x100, 0x20220100⟩) ∧
    after (atZero 0x202200FD [] []) (fun t => t.fault == ⟨.loadMisaligned, 0, 0xFD, 0x202200FD⟩) ∧
    after (atZero 0x2002FFFC [] []) (fun t => t.fault == ⟨.loadOutOfRange, 0, 0xFFFFFFFC, 0x2002FFFC⟩) := by decide
/-- M10, M13: big-endian, rt = 0 stores zeros. -/
theorem test_sw_word :
    after (atZero 0x24220008 [(2, 0x01020304)] [])
      (fun t => bytesAt t 8 == [1, 2, 3, 4] && ends t 4 1 .fetch) ∧
    after (atZero 0x24200010 [] [(16, 9), (17, 9), (18, 9), (19, 9)]) (fun t => t.dmem.cells == []) := by decide
/-- M11, M12: a faulting store writes no byte. -/
theorem test_sw_faults :
    after (atZero 0x24220006 [(2, 0x01020304)] [])
      (fun t => t.fault == ⟨.storeMisaligned, 0, 6, 0x24220006⟩ && t.dmem.cells == [] && ends t 0 0 .faulted) ∧
    after (atZero 0x24220100 [(2, 0x01020304)] [])
      (fun t => t.fault == ⟨.storeOutOfRange, 0, 0x100, 0x24220100⟩ && t.dmem.cells == []) := by decide
/-- B1, B2: taken, not taken. -/
theorem test_beq_taken :
    after (start vectorConfig 0x0C 0x30410004 [(1, 0x10), (2, 0x10)] []) (fun t => ends t 0x20 1 .fetch) ∧
    after (start vectorConfig 0x0C 0x30410004 [(1, 1), (2, 2)] []) (fun t => ends t 0x10 1 .fetch) := by decide
/-- B5, B7, B9: target 0, a target that wraps below 0, the largest backward reach. -/
theorem test_beq_targets :
    after (start vectorConfig 0x04 0x3000FFFE [] []) (fun t => ends t 0 1 .haltedLoop) ∧
    after (start programConfig 0x00 0x3000FFFE [] []) (fun t => ends t 0xFFFFFFFC 1 .haltedSentinel) ∧
    after (start vectorConfig 0x40000 0x30008000 [] []) (fun t => ends t 0x00020004 1 .fetch) := by decide
/-- J4, J5: the field is zero-extended, the region is that of pc + 4. -/
theorem test_j_region :
    after (start vectorConfig 0x08 0x3FFFFFFF [] []) (fun t => ends t 0x0FFFFFFC 1 .fetch) ∧
    after (start vectorConfig 0x1FFFFFFC 0x3C000001 [] []) (fun t => ends t 0x20000004 1 .fetch) := by decide
/-- J1, J3: the far jump and the jump to 0. -/
theorem test_j_halts :
    after (start programConfig 0x28 0x3C000040 [] []) (fun t => ends t 0x100 1 .haltedSentinel) ∧
    after (start vectorConfig 0x08 0x3C000000 [] []) (fun t => ends t 0 1 .haltedLoop) := by decide
/-- N1: LWR writes nothing. -/
theorem test_lwr_no_effect :
    after (atZero 0x08221800 [(1, 5), (2, 7)] []) (fun t => t.readReg 3 == 0 && ends t 4 1 .fetch) := by decide
/-- N2, N3: unrecognized func values write nothing. -/
theorem test_unrecognized_no_effect :
    after (start vectorConfig 0x08 0xFC000000 [] []) (fun t => ends t 0x0C 1 .fetch && t.fault.code == .none) ∧
    after (start vectorConfig 0x08 0x0C000000 [] []) (fun t => ends t 0x0C 1 .fetch) := by decide

/-! ## Fetch, termination and the host's port -/

/-- T2: a fetch past the end of instruction memory. -/
theorem test_fetch_out_of_range :
    after (start ⟨8, 256, 0x100, none⟩ 0x08 0 [] [])
      (fun t => t.fault == ⟨.fetchOutOfRange, 8, 8, 0⟩ && ends t 8 0 .faulted) := by decide
/-- 60_exceptions.md R181, code 1, in a state no run reaches. -/
theorem test_fetch_misaligned :
    after (start vectorConfig 0x02 0 [] []) (fun t => t.fault == ⟨.fetchMisaligned, 2, 2, 0⟩) := by decide
/-- T5: pc + 4 wraps to 0 with the step's effects committed. -/
theorem test_pc_wraps :
    after (start vectorConfig 0xFFFFFFFC 0x14010001 [] []) (fun t => t.readReg 1 == 1 && ends t 0 1 .haltedLoop) := by
  decide
/-- P9's last commit: icount reaches STEP_LIMIT. -/
theorem test_step_limit :
    after { start ⟨256, 256, 0x100, some 5⟩ 0x04 0x3000FFFF [] [] with icount := 4 }
      (fun t => ends t 4 5 .stoppedLimit) := by decide
/-- R186, R200: no step in a stop state or in RESET. -/
theorem test_no_step_when_stopped :
    [Seq.reset, .haltedSentinel, .haltedLoop, .faulted, .stoppedLimit].all
      (fun q => nextState? (step { State.reset with seq := q }) == none) = true := by decide
/-- T1, L1.7's set-up: reset with the host's program and registers. -/
theorem test_reset :
    (State.released oneWordSetup).pc = 0 ∧ (State.released oneWordSetup).readReg 0 = 0 ∧
    (State.released oneWordSetup).readReg 1 = 5 ∧ (State.released oneWordSetup).readReg 31 = 0xFFFFFFFF ∧
    (State.released oneWordSetup).seq = .fetch ∧
    (State.released oneWordSetup).imem.cells = [(1, 0x22#8), (2, 0x18#8), (255, 1#8)] := by decide
/-- `State.reset` is reset released on the initial setup. -/
theorem test_reset_is_released : State.reset = State.released Setup.initial ∧ Setup.initial.wf = true := by decide
/-- The trace of A1's step (R193). -/
theorem test_trace :
    after (atZero 0x00221800 [(1, 5), (2, 7)] []) (fun t =>
      match t.traceRecord with
      | some r => r.pc == 0 && r.ir == 0x00221800 && r.mnemonic == some .add && r.aluResult == 12 &&
          r.wbIndex == some 3 && r.wbValue == some 12 && r.dataAddr == none && r.nextPc == 4
      | none => false) := by decide

/-! ## Codec, assembler and word file -/

/-- C1, C2: markers, case and blanks. -/
theorem test_assemble_add :
    assembleLine "ADD, $s3, $s1, $s2".toList = .word 0x00221800 ∧
    assembleLine "add , $3 , s1, $$ss2".toList = .word 0x00221800 := by decide
/-- C3, C4, C5, C6: signs and wrapped immediates. -/
theorem test_assemble_immediates :
    assembleLine "ADDI, $s2, $s0, -7".toList = .word 0x1402FFF9 ∧
    assembleLine "ADDI, $s1, $s0, 32768".toList = .word 0x14018000 ∧
    assembleLine "ADDI, $s1, $s0, 65535".toList = .word 0x1401FFFF ∧
    assembleLine "J, 33554432".toList = .word 0x3E000000 := by decide
/-- C7 and R107: the order of the operands. -/
theorem test_assemble_order :
    assembleLine "BEQ, $s1, $s2, 4".toList = .word 0x30410004 ∧
    assembleLine "LW, $s4, $s1, 0".toList = .word 0x20240000 ∧
    assembleLine "SW, $s3, $s2, 0".toList = .word 0x24430000 ∧
    assembleLine "SUB, $s4, $s1, $s2".toList = .word 0x04222000 ∧
    assembleLine "J, 64".toList = .word 0x3C000040 := by decide
/-- C10, C11: lines that are skipped. -/
theorem test_assemble_skips :
    assembleLine "LWR, 1, 2, 3".toList = .skipped .unrecognizedMnemonic ∧
    assembleLine "MUL, 1, 2, 3".toList = .skipped .unrecognizedMnemonic ∧
    assembleLine "ADD, $s3, $s1".toList = .skipped .wrongOperandCount ∧
    assembleLine "ADD, $s32, $s1, $s2".toList = .skipped .badRegister := by decide
/-- The model's own choices, logs 21 and 22: the line terminators, and an immediate that is no signed decimal. -/
theorem test_assemble_choices :
    assembleLine ['\n'] = .ignored ∧ assembleLine ['\r', '\n'] = .ignored ∧
    assembleLine ['\r'] = .skipped .unrecognizedMnemonic ∧
    assembleLine "ADDI, $s1, $s0, 0x10".toList = .skipped .badImmediate ∧
    assembleLine "J, --1".toList = .skipped .badImmediate := by decide
/-- R98, R99: comment and empty lines ignored, a bad line skipped, the next one read. -/
theorem test_assemble_continues :
    assemble ["# sum".toList, [], "MUL, 1, 2, 3".toList, "J, 64".toList] = [0x3C000040] := by decide
/-- C4, C6, C8, C9: codec decode. -/
theorem test_codec_decode :
    decodeOp 0x14018000 = .op ⟨.addi, [1, 0, -32768]⟩ ∧ decodeOp 0x3E000000 = .op ⟨.j, [-33554432]⟩ ∧
    decodeOp 0x002218FF = .op ⟨.add, [3, 1, 2]⟩ ∧ encodeOp ⟨.add, [3, 1, 2]⟩ = .ok 0x00221800 ∧
    decodeOp 0x08000000 = .unknown 2 ∧ decodeOp 0xFC000000 = .unknown 63 := by decide
/-- R67: a word file, and files the loader rejects. -/
theorem test_word_file :
    parseWordFile programConfig "00221800\n1402fff9\n".toList = .ok [0x00221800, 0x1402FFF9] ∧
    parseWordFile programConfig "1402FFF9\n".toList = .error .malformedLine ∧
    parseWordFile programConfig "0022180\n".toList = .error .malformedLine ∧
    parseWordFile ⟨4, 4, 1, none⟩ "00000000\n00000000\n".toList = .error .tooLong := by decide

/-! ## Witnesses: states and operands that meet the hypotheses of each obligation

Where an obligation has several clauses, each has its own conjunct, at a boundary of its range. -/

/-- ADD at pc 0 with x[1] = 5, x[2] = 7. -/
def addState : State := atZero 0x00221800 [(1, 5), (2, 7)] []
/-- LW, $s2, $s1, 252: the last word of data memory. -/
def lwLastState : State := atZero 0x202200FC [] [(255, 4)]
/-- LW, $s2, $s1, 253: misaligned. -/
def lwMisalignedState : State := atZero 0x202200FD [] []
/-- LW, $s2, $s1, 256: one past the end. -/
def lwOutOfRangeState : State := atZero 0x20220100 [] []
/-- SW, $s2, $s1, 252: the last word of data memory. -/
def swLastState : State := atZero 0x242200FC [(2, 0x01020304)] []
/-- SW, $s2, $s1, 6: misaligned. -/
def swMisalignedState : State := atZero 0x24220006 [] []
/-- SW, $s2, $s1, 256: one past the end. -/
def swOutOfRangeState : State := atZero 0x24220100 [] []
/-- J, 64 at pc 0x28 with SENTINEL 0x100. -/
def jHaltState : State := start programConfig 0x28 0x3C000040 [] []

theorem test_hyp_EncodeDecodeClearsUnusedBits :
    decode 0x00221FFF#32 = .ok (.add 3 1 2) ∧ decode 0x07FFFFFF#32 = .ok (.sub 31 31 31) ∧
    decode 0x0BFFFFFF#32 = .ok .lwr ∧ decode 0x1402FFF9#32 = .ok (.addi 2 0 0xFFF9) ∧
    decode 0x20000000#32 = .ok (.lw 0 0 0) ∧ decode 0x27FFFFFF#32 = .ok (.sw 31 31 0xFFFF) ∧
    decode 0x30410004#32 = .ok (.beq 1 2 4) ∧ decode 0x3FFFFFFF#32 = .ok (.j 0x3FFFFFF) := by decide

theorem test_hyp_FuncSelectsInstruction :
    let known := [0b000000#6, 0b000001#6, 0b000010#6, 0b000101#6, 0b001000#6, 0b001001#6, 0b001100#6, 0b001111#6]
    (fieldFunc 0x3FFFFFFF#32 ∈ known ∧ fieldFunc 0x0BFFFFFF#32 ∈ known) ∧
    (fieldFunc 0x0C000000#32 ∉ known ∧ fieldFunc 0x40000000#32 ∉ known ∧ fieldFunc 0xFFFFFFFF#32 ∉ known) := by decide

theorem test_hyp_UnusedBitsIgnored :
    decode 0x1402FFF9#32 = .ok (.addi 2 0 0xFFF9) ∧ decode 0x1402FFF9#32 = .ok (.addi 2 0 0xFFF9) ∧
    (Instr.addi 2 0 0xFFF9).func ∈ [0b000101#6, 0b001000#6, 0b001001#6, 0b001100#6, 0b001111#6] := by decide

theorem test_hyp_EncodeWordFormulas :
    (Mnemonic.addi, 5) ∈ [(Mnemonic.addi, 5), (.lw, 8), (.sw, 9), (.beq, 12)] ∧
    (Mnemonic.beq, 12) ∈ [(Mnemonic.addi, 5), (.lw, 8), (.sw, 9), (.beq, 12)] := by decide

theorem test_hyp_CodecRoundTrip :
    AsmOp.legal ⟨.add, [31, 0, 31]⟩ = true ∧ AsmOp.legal ⟨.addi, [1, 0, -32768]⟩ = true ∧
    AsmOp.legal ⟨.j, [33554431]⟩ = true ∧ Mnemonic.lw.format = .i ∧
    decodeOp 0x002218FF#32 = .op ⟨.add, [3, 1, 2]⟩ ∧ decodeOp 0x3FFFFFFF#32 = .op ⟨.j, [-1]⟩ := by decide

theorem test_hyp_CodecDecodeVerdicts :
    fieldFunc 0x002218FF#32 = 0 ∧ fieldFunc 0x04222000#32 = 1 ∧ fieldFunc 0x14018000#32 = 5 ∧
    fieldFunc 0x20240000#32 = 8 ∧ fieldFunc 0x24430000#32 = 9 ∧ fieldFunc 0x30410004#32 = 12 ∧
    fieldFunc 0x3FFFFFFF#32 = 15 ∧
    fieldFunc 0x08221800#32 ∉
      [0b000000#6, 0b000001#6, 0b000101#6, 0b001000#6, 0b001001#6, 0b001100#6, 0b001111#6] ∧
    fieldFunc 0xFFFFFFFF#32 ∉
      [0b000000#6, 0b000001#6, 0b000101#6, 0b001000#6, 0b001001#6, 0b001100#6, 0b001111#6] := by decide

theorem test_hyp_UnrecognizedMnemonicIsSkipped :
    (splitCommas "LWR, 1, 2, 3".toList).map trim = ["LWR".toList, ['1'], ['2'], ['3']] ∧
    "LWR".toList.map Char.toUpper ∉ ["ADD", "SUB", "ADDI", "LW", "SW", "BEQ", "J"].map String.toList ∧
    ignoredLine "LWR, 1, 2, 3".toList = false := by decide

theorem test_hyp_ControlTable :
    (2#6 : BitVec 6) ∉ [0b000000#6, 0b000001#6, 0b001000#6, 0b001001#6, 0b001100#6, 0b000101#6, 0b001111#6] ∧
    (63#6 : BitVec 6) ∉ [0b000000#6, 0b000001#6, 0b001000#6, 0b001001#6, 0b001100#6, 0b000101#6, 0b001111#6] ∧
    (Scratch.blank.ctl.regWrite = false ∧ Scratch.blank.ctl.memRead = false ∧ Scratch.blank.ctl.memWrite = false ∧
      Scratch.blank.ctl.branch = false) := by decide

theorem reachable_oneWord : Reachable (State.released oneWordSetup) := .released _ test_setup_legal

theorem test_hyp_RegisterZeroHardwired :
    ((31#5 : RegIx) ≠ 0#5 ∧ (1#5 : RegIx) ≠ 31#5) ∧
    (∃ t : State, exec (.add 0 1 2) addState = .next t ∧ (t.pc == 4#32) = true) ∧
    (∃ s : State, Reachable s) :=
  ⟨by decide, exists_of_answers (by decide), _, reachable_oneWord⟩

theorem test_hyp_RegisterFilePorts :
    ({ addState with seq := .regread } : State).seq = .regread ∧
    (let s : State := stageMemory (stageExecute (stageRegread (stageDecode (stageFetch addState))))
     s.seq = .writeback ∧ s.regPorts.writeEnable = true ∧ s.regPorts.writeAddr = some 3#5 ∧
       s.regPorts.writeData = some 12#32) := by decide

theorem test_hyp_OnlyDestinationRegisterChanges :
    ∃ t : State, exec (.add 3 1 2) addState = .next t ∧ (t.readReg 3 != addState.readReg 3) = true :=
  exists_of_answers (by decide)

/-- Each of the three forms of next pc from an aligned pc, and a reachable state. -/
theorem test_hyp_NextPcIsOneOfThree :
    (addState.seq = .fetch ∧ addState.pc.toNat % 4 = 0) ∧
    (∃ t : State, step addState = .next t ∧ (t.seq != .faulted && t.pc == 4#32) = true) ∧
    (∃ t : State, step (atZero 0x30007FFF [] []) = .next t ∧ (t.seq != .faulted && t.pc == 0x20000#32) = true) ∧
    (∃ t : State, step (atZero 0x3FFFFFFF [] []) = .next t ∧ (t.seq != .faulted && t.pc == 0x0FFFFFFC#32) = true) ∧
    (∃ s : State, Reachable s) :=
  ⟨by decide, exists_of_answers (by decide), exists_of_answers (by decide), exists_of_answers (by decide), _,
    reachable_oneWord⟩

theorem test_hyp_StepIgnoresEarlierRecord : State.reset.seq = .fetch := by decide

/-- A faulting step, a completed one with the counter at its top, an instruction. -/
theorem test_hyp_InstructionCounter :
    (lwMisalignedState.seq = .fetch ∧
      ∃ t : State, step lwMisalignedState = .next t ∧ (t.seq == .faulted) = true) ∧
    (let s : State := { jHaltState with icount := 0xFFFFFFFFFFFFFFFF#64 }
     s.seq = .fetch ∧ ∃ t : State, step s = .next t ∧ (t.seq != .faulted && t.icount == 0) = true) ∧
    (∃ t : State, exec .lwr addState = .next t ∧ (t.pc == 4#32) = true) :=
  ⟨⟨by decide, exists_of_answers (by decide)⟩, ⟨by decide, exists_of_answers (by decide)⟩,
    exists_of_answers (by decide)⟩

theorem test_hyp_ResetValues :
    oneWordSetup.wf = true ∧ 0 < oneWordSetup.program.length ∧ 4 * oneWordSetup.program.length ≤ 4 := by decide

theorem test_hyp_AccessCheckOrder :
    (253#32).toNat % 4 ≠ 0 ∧
    ((256#32).toNat % 4 = 0 ∧ (256#32).toNat + 4 > 256) ∧ ((0xFFFFFFFC#32).toNat % 4 = 0 ∧ 0xFFFFFFFC + 4 > 256) ∧
    ((252#32).toNat % 4 = 0 ∧ (252#32).toNat + 4 ≤ 256) ∧
    ((0xFFFFFFFC#32).toNat % 4 = 0 ∧ (0xFFFFFFFC#32).toNat + 4 ≤ 2 ^ 32) := by decide

theorem test_hyp_DataRead :
    (253#32).toNat % 4 ≠ 0 ∧
    ((256#32).toNat % 4 = 0 ∧ (256#32).toNat + 4 > lwLastState.config.dmemBytes) ∧
    ((252#32).toNat % 4 = 0 ∧ (252#32).toNat + 4 ≤ lwLastState.config.dmemBytes) := by decide

theorem test_hyp_DataWrite :
    lwLastState.dmem.wf = true ∧ (253#32).toNat % 4 ≠ 0 ∧
    ((256#32).toNat % 4 = 0 ∧ (256#32).toNat + 4 > lwLastState.config.dmemBytes) ∧
    ((252#32).toNat % 4 = 0 ∧ (252#32).toNat + 4 ≤ lwLastState.config.dmemBytes) := by decide

theorem test_hyp_FetchRead :
    (253#32).toNat % 4 ≠ 0 ∧
    ((256#32).toNat % 4 = 0 ∧ (256#32).toNat + 4 > jHaltState.config.imemBytes) ∧
    ((252#32).toNat % 4 = 0 ∧ (252#32).toNat + 4 ≤ jHaltState.config.imemBytes) := by decide

theorem test_hyp_InstructionMemoryPort :
    addState.seq = .fetch ∧ addState.imemPort.fault = 0#2 ∧
    (start vectorConfig 2 0 [] []).imemPort.fault = 1#2 ∧ (start programConfig 256 0 [] []).imemPort.fault = 2#2 := by
  decide

/-- A state in the MEMORY sub-stage of each kind: outside MEMORY, a load, a store, neither. -/
theorem test_hyp_DataMemoryPort :
    addState.seq ≠ .memory ∧
    (let m := fun s : State => stageExecute (stageRegread (stageDecode (stageFetch s)))
     ((m lwMisalignedState).seq = .memory ∧ (m lwMisalignedState).scratch.ctl.memRead = true) ∧
     ((m lwLastState).dmemPort.fault = 0#2 ∧ (m lwMisalignedState).dmemPort.fault = 1#2 ∧
       (m lwOutOfRangeState).dmemPort.fault = 2#2) ∧
     ((m swOutOfRangeState).scratch.ctl.memRead = false ∧ (m swOutOfRangeState).scratch.ctl.memWrite = true) ∧
     ((m swLastState).dmemPort.fault = 0#2 ∧ (m swMisalignedState).dmemPort.fault = 1#2 ∧
       (m swOutOfRangeState).dmemPort.fault = 2#2) ∧
     ((m addState).scratch.ctl.memRead = false ∧ (m addState).scratch.ctl.memWrite = false)) := by decide

theorem test_hyp_AtMostOneDataAccess :
    (controlUnit (Instr.beq 0 0 1).func).memRead = false ∧ (controlUnit (Instr.beq 0 0 1).func).memWrite = false ∧
    ∃ t : State, exec (.beq 0 0 1) addState = .next t ∧ (t.pc == 8#32) = true :=
  ⟨by decide, by decide, exists_of_answers (by decide)⟩

theorem test_hyp_ProgramLoad :
    parseWordFile programConfig "00221800\n".toList = .ok [0x00221800] ∧
    ("00221800\n".toList = textOfWords [0x00221800] ∧ [0x00221800#32].length ≤ programConfig.imemBytes / 4) ∧
    oneWordSetup.imemInit.wf = true ∧ 4 * [0x00221800#32].length ≤ 4 ∧
    (oneWordSetup.wf = true ∧ 0 < oneWordSetup.program.length) ∧
    (let p : Setup := { oneWordSetup with config := ⟨4, 256, 1#32, none⟩, program := [0#32, 0#32] }
     p.config.imemBytes / 4 < p.program.length) := by decide

/-- SW to the last word, then LW of the same word and of the word before it. -/
theorem test_hyp_StoreThenLoad :
    swLastState.dmem.wf = true ∧
    ∃ t : State, exec (.sw 2 1 252) swLastState = .next t ∧
      (t.seq != .faulted && wordAligned (t.effectiveAddr 1 252) && inRange t.config.dmemBytes (t.effectiveAddr 1 252) &&
        t.effectiveAddr 1 252 == swLastState.effectiveAddr 1 252 &&
        wordAligned (t.effectiveAddr 1 248) && inRange t.config.dmemBytes (t.effectiveAddr 1 248) &&
        t.effectiveAddr 1 248 != swLastState.effectiveAddr 1 252) = true :=
  ⟨by decide, exists_of_answers (by decide)⟩

theorem test_hyp_OnlyStoresWriteMemory :
    (∃ t : State, step swLastState = .next t ∧ (t.pc == 4#32) = true) ∧
    (∃ t : State, exec (.sw 2 1 252) swLastState = .next t ∧ (t.dmem.read 255 != swLastState.dmem.read 255) = true) :=
  ⟨exists_of_answers (by decide), exists_of_answers (by decide)⟩

theorem test_hyp_AluArithmetic : ((alu .sub 5 5).2 = true ∧ (5#32 : Word) = 5#32) := by decide

/-- Each arm of the termination check. -/
theorem test_hyp_CommitAndTermination :
    (jHaltState.seq = .fetch ∧ ∃ t : State, step jHaltState = .next t ∧
      (t.seq != .faulted && decide (t.config.sentinel.toNat ≤ t.pc.toNat)) = true) ∧
    (∃ t : State, step (start programConfig 0x04 0x3000FFFE [] []) = .next t ∧
      (t.seq != .faulted && decide (t.pc.toNat < t.config.sentinel.toNat) && t.pc == 0#32) = true) ∧
    (∃ t : State, step (start ⟨256, 256, 0x100, some 1⟩ 0x04 0x3000FFFF [] []) = .next t ∧
      (t.seq != .faulted && decide (t.pc.toNat < t.config.sentinel.toNat) && t.pc != 0#32 &&
        t.config.stepLimit == some 1 && decide (1 ≤ t.icount.toNat)) = true) ∧
    (∃ t : State, step (start ⟨256, 256, 0x100, some 2⟩ 0x04 0x3000FFFF [] []) = .next t ∧
      (t.seq != .faulted && decide (t.pc.toNat < t.config.sentinel.toNat) && t.pc != 0#32 &&
        t.config.stepLimit == some 2 && decide (t.icount.toNat < 2)) = true) ∧
    (∃ t : State, step addState = .next t ∧
      (t.seq != .faulted && decide (t.pc.toNat < t.config.sentinel.toNat) && t.pc != 0#32 &&
        t.config.stepLimit == none) = true) :=
  ⟨⟨by decide, exists_of_answers (by decide)⟩, exists_of_answers (by decide), exists_of_answers (by decide),
    exists_of_answers (by decide), exists_of_answers (by decide)⟩

theorem test_hyp_StepRefinesSixStages : addState.seq = .fetch ∧ lwMisalignedState.seq = .fetch := by decide

/-- An instruction that reaches WRITEBACK and one that faults in MEMORY. -/
theorem test_hyp_StepFromAnyStageEndsAlike :
    (addState.seq = .fetch ∧ addState.imemRead addState.pc = .ok 0x00221800 ∧
      (stageMemory (stageExecute (stageRegread (stageDecode (stageFetch addState))))).seq = .writeback) ∧
    (lwMisalignedState.seq = .fetch ∧ lwMisalignedState.imemRead lwMisalignedState.pc = .ok 0x202200FD ∧
      (stageMemory (stageExecute (stageRegread (stageDecode (stageFetch lwMisalignedState))))).seq = .faulted) := by
  decide

theorem test_hyp_StepRunsDecodedInstruction :
    addState.seq = .fetch ∧ addState.imemRead addState.pc = .ok 0x00221800 ∧
    decode 0x00221800#32 = .ok (.add 3 1 2) := by decide

theorem test_hyp_EveryFetchStepAnswers : State.reset.seq = .fetch ∧ lwMisalignedState.seq = .fetch := by decide

theorem test_hyp_AddInstruction : (31#5 : RegIx) ≠ 0#5 := by decide
theorem test_hyp_SubInstruction : (31#5 : RegIx) ≠ 0#5 := by decide
theorem test_hyp_AddiInstruction : (31#5 : RegIx) ≠ 0#5 := by decide

theorem test_hyp_LwInstruction :
    (let ea := lwLastState.readReg 1 + (252#16).signExtend 32
     ea.toNat % 4 = 0 ∧ ea.toNat + 4 ≤ lwLastState.config.dmemBytes ∧ (2#5 : RegIx) ≠ 0#5) ∧
    (lwLastState.readReg 1 + (253#16).signExtend 32).toNat % 4 ≠ 0 ∧
    (let ea := lwLastState.readReg 1 + (256#16).signExtend 32
     ea.toNat % 4 = 0 ∧ ea.toNat + 4 > lwLastState.config.dmemBytes) := by decide

theorem test_hyp_SwInstruction :
    swLastState.dmem.wf = true ∧
    (let ea := swLastState.readReg 1 + (252#16).signExtend 32
     ea.toNat % 4 = 0 ∧ ea.toNat + 4 ≤ swLastState.config.dmemBytes) ∧
    (swLastState.readReg 1 + (253#16).signExtend 32).toNat % 4 ≠ 0 ∧
    (let ea := swLastState.readReg 1 + (256#16).signExtend 32
     ea.toNat % 4 = 0 ∧ ea.toNat + 4 > swLastState.config.dmemBytes) := by decide

theorem test_hyp_BeqInstruction :
    addState.readReg 0 = addState.readReg 3 ∧ addState.readReg 1 ≠ addState.readReg 2 := by decide

theorem test_hyp_UnrecognizedFuncStep :
    let s := start vectorConfig 0x08 0xFC000000 [] []
    s.seq = .fetch ∧ s.imemRead s.pc = .ok 0xFC000000 ∧
    fieldFunc 0xFC000000#32 ∉
      [0b000000#6, 0b000001#6, 0b000010#6, 0b000101#6, 0b001000#6, 0b001001#6, 0b001100#6, 0b001111#6] := by decide

/-- A state for each of the six codes. -/
theorem test_hyp_FaultCodesExactly :
    (start vectorConfig 2 0 [] []).seq = .fetch ∧
    after (start vectorConfig 2 0 [] []) (fun t => t.seq == .faulted && t.fault.code == .fetchMisaligned) ∧
    after (start programConfig 256 0 [] []) (fun t => t.seq == .faulted && t.fault.code == .fetchOutOfRange) ∧
    after lwMisalignedState (fun t => t.seq == .faulted && t.fault.code == .loadMisaligned) ∧
    after lwOutOfRangeState (fun t => t.seq == .faulted && t.fault.code == .loadOutOfRange) ∧
    after swMisalignedState (fun t => t.seq == .faulted && t.fault.code == .storeMisaligned) ∧
    after swOutOfRangeState (fun t => t.seq == .faulted && t.fault.code == .storeOutOfRange) := by decide

theorem test_hyp_FaultRecordContents :
    (lwOutOfRangeState.seq = .fetch ∧ ∃ t : State, step lwOutOfRangeState = .next t ∧
      (t.seq == .faulted && t.fault.code == .loadOutOfRange) = true) ∧
    (∃ t : State, step (start programConfig 256 0 [] []) = .next t ∧
      (t.seq == .faulted && t.fault.code == .fetchOutOfRange) = true) :=
  ⟨⟨by decide, exists_of_answers (by decide)⟩, exists_of_answers (by decide)⟩

theorem test_hyp_FaultsArePrecise :
    swOutOfRangeState.seq = .fetch ∧ ∃ t : State, step swOutOfRangeState = .next t ∧ (t.seq == .faulted) = true :=
  ⟨by decide, exists_of_answers (by decide)⟩

theorem test_hyp_StopStatesAreTerminal :
    ({ addState with seq := .haltedLoop } : State).seq.stopped = true ∧ addState.assertReset.seq = .reset ∧
    oneWordSetup.wf = true ∧ addState.assertReset.releaseReset oneWordSetup = some (State.released oneWordSetup) := by
  decide

/-- A step without a load, whose mnemonic the codec knows, one with a load, and one it does not know. -/
theorem test_hyp_TraceOfCompletedStep :
    (addState.seq = .fetch ∧ addState.imemRead addState.pc = .ok 0x00221800 ∧
      decodeOp 0x00221800 = .op ⟨.add, [3, 1, 2]⟩ ∧
      ∃ t : State, step addState = .next t ∧
        (t.seq != .faulted && t.traceRecord.any (fun r => !r.ctl.memRead && r.wbIndex == some 3 &&
          r.wbValue == some 12)) = true) ∧
    (lwLastState.seq = .fetch ∧ lwLastState.imemRead lwLastState.pc = .ok 0x202200FC ∧
      ∃ t : State, step lwLastState = .next t ∧
        (t.seq != .faulted && t.traceRecord.any (fun r => r.ctl.memRead && r.memData == some 4)) = true) ∧
    ((atZero 0xFC000000 [] []).imemRead 0 = .ok 0xFC000000 ∧ decodeOp 0xFC000000 = .unknown 63 ∧
      ∃ t : State, step (atZero 0xFC000000 [] []) = .next t ∧
        (t.seq != .faulted && t.traceRecord.any (fun r => r.mnemonic == none)) = true) :=
  ⟨⟨by decide, by decide, by decide, exists_of_answers (by decide)⟩,
    ⟨by decide, by decide, exists_of_answers (by decide)⟩, ⟨by decide, by decide, exists_of_answers (by decide)⟩⟩

theorem test_hyp_SnapshotInStopStates :
    (∃ n : Snapshot, ({ addState with seq := .faulted } : State).snapshot = some n) ∧
    (∃ n : Snapshot, ({ addState with seq := .haltedSentinel } : State).snapshot = some n) :=
  ⟨⟨_, rfl⟩, ⟨_, rfl⟩⟩

theorem test_hyp_ReleaseMeetsInvariant : oneWordSetup.wf = true := by decide

theorem test_hyp_StepKeepsInvariant :
    addState.Inv ∧ ∃ t : State, step addState = .next t ∧ (t.pc == 4#32) = true :=
  ⟨by decide, exists_of_answers (by decide)⟩

theorem test_hyp_StepKeepsConfiguration : ∃ t : State, step addState = .next t ∧ (t.pc == 4#32) = true :=
  exists_of_answers (by decide)

/-- A reachable state after one step of the loaded word. -/
theorem test_hyp_ReachableStatesAreSound : ∃ t : State, Reachable t ∧ (t.readReg 3 == 4#32) = true := by
  obtain ⟨t, h, p⟩ := exists_of_answers (o := step (State.released oneWordSetup)) (p := fun t => t.readReg 3 == 4#32)
    (by decide)
  exact ⟨t, .step _ t reachable_oneWord h, p⟩

/-- Each port outside its sub-stage, a fetch and a load that fault, and a store in MEMORY. -/
theorem test_hyp_IdleInterfaceSignals :
    (stageFetch addState).seq ≠ .fetch ∧ addState.seq ≠ .memory ∧ addState.seq ≠ .regread ∧ addState.seq ≠ .writeback ∧
    (let m := stageExecute (stageRegread (stageDecode (stageFetch swLastState)))
     m.seq = .memory ∧ m.scratch.ctl.memRead = false) ∧
    (let f := start programConfig 256 0 [] []
     f.seq = .fetch ∧ f.imemRead f.pc = .error .fetchOutOfRange) ∧
    (let m := stageExecute (stageRegread (stageDecode (stageFetch lwMisalignedState)))
     m.seq = .memory ∧ m.scratch.ctl.memRead = true ∧
       m.memRead m.scratch.aluResult = .error .loadMisaligned) := by decide

end Sys2Proof.Tests
end

section
/-! SUPPORT. What a step from FETCH does to pc, icount, the fault record and register 0, the induction over a run, and
the claims about the state that follow. -/

namespace Sys2Proof.Machine

/-! ## LW and SW by the check of their address (42_load_store.md) -/

/-- LW at an address whose check fails takes that fault (42_load_store.md R150). -/
theorem exec_lw_of_fault {rt rs : RegIx} {imm : BitVec 16} {s : State} {c : FaultCode}
    (h : accessFault .load s.config.dmemBytes (s.effectiveAddr rs imm) = some c) :
    exec (.lw rt rs imm) s = .next (s.enterFault c (s.effectiveAddr rs imm) s.scratch.ir) := by
  simp only [exec, execLw, State.memRead, h]

/-- LW at an address that passes the check loads the word there. -/
theorem exec_lw_of_no_fault {rt rs : RegIx} {imm : BitVec 16} {s : State}
    (h : accessFault .load s.config.dmemBytes (s.effectiveAddr rs imm) = none) :
    exec (.lw rt rs imm) s = .next (s.writeReg rt (s.dmem.readWord (s.effectiveAddr rs imm).toNat)).advance := by
  simp only [exec, execLw, State.memRead, h]

/-- SW at an address whose check fails takes that fault (R151). -/
theorem exec_sw_of_fault {rt rs : RegIx} {imm : BitVec 16} {s : State} {c : FaultCode}
    (h : accessFault .store s.config.dmemBytes (s.effectiveAddr rs imm) = some c) :
    exec (.sw rt rs imm) s = .next (s.enterFault c (s.effectiveAddr rs imm) s.scratch.ir) := by
  simp only [exec, execSw, State.memWrite, h]

/-- SW at an address that passes the check stores the word there. -/
theorem exec_sw_of_no_fault {rt rs : RegIx} {imm : BitVec 16} {s : State}
    (h : accessFault .store s.config.dmemBytes (s.effectiveAddr rs imm) = none) :
    exec (.sw rt rs imm) s = .next
      ({ s with dmem := s.dmem.writeWord (s.effectiveAddr rs imm).toNat (s.readReg rt) } : State).advance := by
  simp only [exec, execSw, State.memWrite, h]

/-! ## How an instruction ends -/

theorem completed_commit (s : State) (p : Word) : Completed s (s.commit p) p := by simp [Completed]

theorem completed_writeReg_commit (s : State) (d : RegIx) (v p : Word) :
    Completed s ((s.writeReg d v).commit p) p := by simp [Completed]

theorem completed_dmem_commit (s : State) (m : Memory) (p : Word) :
    Completed s (({ s with dmem := m } : State).commit p) p := by simp [Completed]

theorem faultTaken_enterFault (s : State) (c : FaultCode) (a ir : Word) :
    FaultTaken s (s.enterFault c a ir) c a ir := by simp [FaultTaken, RegsKept, DmemKept]

theorem Completed.seq_ne_faulted {s t : State} {p : Word} (h : Completed s t p) : t.seq ≠ .faulted := by
  obtain ⟨-, -, hseq, -⟩ := h
  rw [hseq]
  exact terminationSeq_ne_faulted _ _ _

/-- The commit ends between two steps (40_datapath.md R132). -/
theorem terminationSeq_not_midStep (c : Config) (pc : Word) (n : BitVec 64) :
    (terminationSeq c pc n).midStep = false := by
  rcases terminationSeq_cases c pc n with ⟨_, e⟩ | ⟨_, _, e⟩ | ⟨_, _, _, e⟩ | ⟨_, _, _, e⟩ <;> rw [e] <;> rfl

/-- An instruction completes with one of its next pcs, or takes a fault that is no fetch fault. -/
theorem exec_completes_or_faults {i : Instr} {s t : State} (h : exec i s = .next t) :
    (∃ p, CommitsPc i s p ∧ Completed s t p) ∨
    (∃ c a, c ≠ .fetchMisaligned ∧ FaultTaken s t c a s.scratch.ir) := by
  rcases exec_cases i s with ⟨d, v, -, e⟩ | ⟨p, e, -, hp⟩ | ⟨rt, rs, imm, -, -, -, e⟩ | ⟨rt, rs, imm, c, hc, e⟩ <;>
    obtain rfl := Host.Outcome.next.inj (e.symm.trans h)
  · exact .inl ⟨_, .inl rfl, completed_writeReg_commit s d v _⟩
  · exact .inl ⟨p, hp, completed_commit s p⟩
  · exact .inl ⟨_, .inl rfl, completed_dmem_commit s _ _⟩
  · refine .inr ⟨c, _, ?_, faultTaken_enterFault s c _ _⟩
    rcases hc with ⟨-, ⟨-, rfl⟩ | ⟨-, -, rfl⟩⟩ | ⟨-, ⟨-, rfl⟩ | ⟨-, -, rfl⟩⟩ <;> decide

/-- No instruction changes x[0] (10_state.md R21). -/
theorem exec_readReg_zero {i : Instr} {s t : State} (h : exec i s = .next t) : t.readReg 0#5 = s.readReg 0#5 := by
  rcases exec_cases i s with ⟨d, v, -, e⟩ | ⟨p, e, -⟩ | ⟨rt, rs, imm, -, -, -, e⟩ | ⟨rt, rs, imm, c, -, e⟩ <;>
    obtain rfl := Host.Outcome.next.inj (e.symm.trans h)
  · simp
  · simp
  · rfl
  · simp

/-! ## One step from FETCH -/

/-- The pc a fetched word commits (40_datapath.md R129): pc + 4, for BEQ the branch target, for J the jump target. -/
def WordCommitsPc (w pc p : Word) : Prop :=
  p = pc + 4#32 ∨
  (fieldFunc w = 0b001100#6 ∧ p = (pc + 4#32) + ((fieldImm16 w).signExtend 32 <<< 2)) ∨
  (fieldFunc w = 0b001111#6 ∧ p = ((pc + 4#32) &&& 0xF0000000#32) ||| ((fieldJimm26 w).setWidth 32 <<< 2))

/-- What a decoded instruction commits, in terms of its word. -/
theorem CommitsPc.wordCommitsPc {w p : Word} {i : Instr} {s : State} (hd : decode w = .ok i)
    (h : CommitsPc i s p) : WordCommitsPc w s.pc p := by
  rcases h with h | ⟨rt, rs, imm, rfl, h⟩ | ⟨imm, rfl, h⟩
  · exact .inl h
  · obtain ⟨hf, -, -, rfl⟩ : fieldFunc w = funcBeq ∧ rt = fieldRt w ∧ rs = fieldRs w ∧ imm = fieldImm16 w := by
      simpa using decode_cases hd
    exact .inr (.inl ⟨hf, h⟩)
  · obtain ⟨hf, rfl⟩ : fieldFunc w = funcJ ∧ imm = fieldJimm26 w := by simpa using decode_cases hd
    exact .inr (.inr ⟨hf, h⟩)

/-- A step from FETCH completes with a next pc of the fetched word, or takes a fault; FETCH_MISALIGNED only at a
misaligned pc. -/
theorem step_completes_or_faults {s t : State} (hs : s.seq = .fetch) (h : step s = .next t) :
    (∃ w p, s.imemRead s.pc = .ok w ∧ WordCommitsPc w s.pc p ∧
      Completed { s with scratch := stepRecord s w } t p) ∨
    (∃ r c a ir, FaultTaken { s with scratch := r } t c a ir ∧ (c = .fetchMisaligned → wordAligned s.pc = false)) := by
  rcases step_fetch_cases hs with ⟨c, hf, e⟩ | ⟨w, i, hw, hd, e⟩ | ⟨w, _, hw, -, e⟩ <;> rw [e] at h
  · obtain rfl := Host.Outcome.next.inj h
    refine .inr ⟨_, c, _, _, faultTaken_enterFault _ c _ _, ?_⟩
    rintro rfl
    rcases State.imemRead_error hf with ⟨ha, -⟩ | ⟨-, -, hc⟩
    · exact ha
    · cases hc
  · rcases exec_completes_or_faults h with ⟨p, hp, hc⟩ | ⟨c, a, hne, hf⟩
    · exact .inl ⟨w, p, hw, hp.wordCommitsPc hd, hc⟩
    · exact .inr ⟨_, c, a, _, hf, fun hc => absurd hc hne⟩
  · obtain rfl := Host.Outcome.next.inj h
    exact .inl ⟨w, _, hw, .inl rfl, completed_commit _ _⟩

/-- No step changes x[0]. -/
theorem step_readReg_zero {s t : State} (hs : s.seq = .fetch) (h : step s = .next t) :
    t.readReg 0#5 = s.readReg 0#5 := by
  rcases step_fetch_cases hs with ⟨_, -, e⟩ | ⟨w, _, -, -, e⟩ | ⟨_, _, -, -, e⟩ <;> rw [e] at h
  · obtain rfl := Host.Outcome.next.inj h; rfl
  · exact exec_readReg_zero (s := { s with scratch := stepRecord s w }) h
  · obtain rfl := Host.Outcome.next.inj h; rfl

/-- A step from FETCH ends between two steps. -/
theorem step_not_midStep {s t : State} (hs : s.seq = .fetch) (h : step s = .next t) : t.seq.midStep = false := by
  rcases step_completes_or_faults hs h with ⟨w, p, -, -, -, -, hseq, -⟩ | ⟨r, c, a, ir, ⟨hseq, -⟩, -⟩
  · rw [hseq]; exact terminationSeq_not_midStep _ _ _
  · rw [hseq]; rfl

/-- Between two steps only FETCH makes a step (60_exceptions.md R186). -/
theorem seq_fetch_of_step_next {s t : State} (hm : s.seq.midStep = false) (h : step s = .next t) :
    s.seq = .fetch := by
  cases hs : s.seq <;> simp_all [step, Seq.midStep]

/-! ## The induction over a run -/

/-- Every state of a run lies between two steps. -/
theorem Reachable.not_midStep {s : State} (h : Reachable s) : s.seq.midStep = false := by
  induction h with
  | released p hp => rfl
  | step s t _ hst ih => exact step_not_midStep (seq_fetch_of_step_next ih hst) hst

/-- What holds at release and is kept by every step from FETCH holds in every state of every run. -/
theorem Reachable.invariant {P : State → Prop} (hrel : ∀ p : Setup, p.wf = true → P (State.released p))
    (hstep : ∀ s t : State, s.seq = .fetch → P s → Machine.step s = .next t → P t) {s : State} (h : Reachable s) : P s := by
  induction h with
  | released p hp => exact hrel p hp
  | step s t hs hst ih => exact hstep s t (seq_fetch_of_step_next hs.not_midStep hst) ih hst

/-! ## Register 0 and the register file's ports (10_state.md R21, R23) -/

/-- Settles O12: the rule of a register write, `exec_readReg_zero` for every instruction, and the induction over a run. -/
theorem registerZeroHardwired : Obligations.RegisterZeroHardwired := by
  refine ⟨State.writeReg_zero, ?_, fun _ _ _ => exec_readReg_zero, State.readReg_released_zero, ?_⟩
  · intro s i v hi
    exact ⟨s.readReg_writeReg_same v hi, fun _ hj => s.readReg_writeReg_other v hj⟩
  · intro s hs
    refine hs.invariant (P := fun s => s.readReg 0#5 = 0#32) (fun p _ => State.readReg_released_zero p) ?_
    intro s t hf h0 hst
    rw [step_readReg_zero hf hst, h0]

/-- What any register reads after any write. -/
theorem State.readReg_writeReg (s : State) (d r : RegIx) (v : Word) :
    (s.writeReg d v).readReg r = if r = d ∧ r ≠ 0#5 then v else s.readReg r := by
  by_cases hd : r = d
  · subst hd
    by_cases h0 : r = 0#5
    · simp [h0]
    · simp [h0, s.readReg_writeReg_same v h0]
  · simp [hd, s.readReg_writeReg_other v hd]

@[simp] theorem stageDecode_regs (s : State) : (stageDecode s).regs = s.regs := rfl

@[simp] theorem stageFetch_regs (s : State) : (stageFetch s).regs = s.regs := by
  unfold stageFetch; split <;> rfl

theorem State.regPorts_of_regread {s : State} (h : s.seq = .regread) :
    s.regPorts = ⟨some s.scratch.rs, some (s.readReg s.scratch.rs), some s.scratch.rt, some (s.readReg s.scratch.rt),
      none, none, false⟩ := by
  simp [State.regPorts, h]

theorem State.regPorts_of_writeback {s : State} (h : s.seq = .writeback) :
    s.regPorts = ⟨none, none, none, none, some s.scratch.wbIndex, s.scratch.wroteBack.wbValue,
      s.scratch.ctl.regWrite⟩ := by
  simp [State.regPorts, h]

/-- The write port is enabled in WRITEBACK only (R23). -/
theorem State.seq_of_writeEnable {s : State} (h : s.regPorts.writeEnable = true) : s.seq = .writeback := by
  unfold State.regPorts at h
  split at h
  · cases h
  · split at h
    · assumption
    · cases h

/-- What a register reads after WRITEBACK with a write-back value (40_datapath.md R130). -/
theorem stageWriteback_readReg {s : State} {v : Word} (hv : s.scratch.wroteBack.wbValue = some v) (r : RegIx) :
    (stageWriteback s).readReg r =
      if s.scratch.ctl.regWrite = true ∧ r = s.scratch.wbIndex ∧ r ≠ 0#5 then v else s.readReg r := by
  have hctl : s.scratch.wroteBack.ctl = s.scratch.ctl := rfl
  have hix : s.scratch.wroteBack.wbIndex = s.scratch.wbIndex := rfl
  cases hw : s.scratch.ctl.regWrite
  · simp [stageWriteback, writeBack, hctl, hw, State.readReg]
  · simp only [stageWriteback, writeBack, hctl, hw, if_true, hv, hix, State.readReg_commit, State.readReg_writeReg]
    simp [State.readReg]

/-- Settles O13: each sub-stage's ports, and what WRITEBACK leaves in each register. -/
theorem registerFilePorts : Obligations.RegisterFilePorts := by
  refine ⟨by simp, fun s => ⟨?_, ?_, State.seq_of_writeEnable⟩⟩
  · intro h
    simp [State.regPorts_of_regread h]
  · intro h
    rw [State.regPorts_of_writeback h]
    refine ⟨rfl, rfl, rfl, ?_⟩
    intro d r v hd hv
    obtain rfl := Option.some.inj hd
    exact stageWriteback_readReg hv r

/-! ## The next pc (10_state.md R27) -/

/-- All three next pcs are multiples of 4 when pc is. -/
theorem WordCommitsPc.aligned {w pc p : Word} (h : WordCommitsPc w pc p) (hpc : pc.toNat % 4 = 0) :
    p.toNat % 4 = 0 := by
  have shift (x : Word) : (x <<< 2).toNat % 4 = 0 := by
    rw [BitVec.toNat_shiftLeft, Nat.shiftLeft_eq]; omega
  have four : (pc + 4#32).toNat % 4 = 0 := by
    rw [BitVec.toNat_add, BitVec.toNat_ofNat]; omega
  rcases h with rfl | ⟨-, rfl⟩ | ⟨-, rfl⟩
  · exact four
  · rw [BitVec.toNat_add]
    have := shift ((fieldImm16 w).signExtend 32)
    omega
  · rw [BitVec.toNat_or, Nat.or_mod_two_pow (n := 2), BitVec.toNat_and, Nat.and_mod_two_pow (n := 2), four, shift]
    rfl

/-- A step from a pc that is a multiple of 4 keeps that, and a fault record without FETCH_MISALIGNED. -/
theorem step_keeps_aligned {s t : State} (hs : s.seq = .fetch)
    (h : s.pc.toNat % 4 = 0 ∧ s.fault.code ≠ .fetchMisaligned) (hst : step s = .next t) :
    t.pc.toNat % 4 = 0 ∧ t.fault.code ≠ .fetchMisaligned := by
  obtain ⟨hpc, hfault⟩ := h
  rcases step_completes_or_faults hs hst with
    ⟨w, p, -, hp, tpc, -, -, -, -, tfault, -⟩ | ⟨r, c, a, ir, ⟨-, tfault, tpc, -⟩, hc⟩
  · rw [tpc, tfault]
    exact ⟨hp.aligned hpc, hfault⟩
  · rw [tpc, tfault]
    refine ⟨hpc, fun e => ?_⟩
    have := (wordAligned_iff s.pc).2 hpc
    rw [hc e] at this
    cases this

/-- Settles O15: the next pc of a completed step, and the induction over a run. -/
theorem nextPcIsOneOfThree : Obligations.NextPcIsOneOfThree := by
  refine ⟨?_, ?_⟩
  · intro s t hs hst hne
    rcases step_completes_or_faults hs hst with ⟨w, p, hw, hp, tpc, -⟩ | ⟨_, _, _, _, ⟨hseq, -⟩, -⟩
    · subst tpc
      exact ⟨w, hw, hp, hp.aligned⟩
    · exact absurd hseq hne
  · intro s hs
    exact hs.invariant (P := fun s => s.pc.toNat % 4 = 0 ∧ s.fault.code ≠ .fetchMisaligned)
      (fun _ _ => ⟨rfl, FaultCode.noConfusion⟩) (fun _ _ hf ih hst => step_keeps_aligned hf ih hst)

/-! ## The instruction counter (10_state.md R36) -/

/-- Two states with the same registers, data memory, pc and fault record. -/
def SameEffect (u t : State) : Prop := u.regs = t.regs ∧ u.dmem = t.dmem ∧ u.pc = t.pc ∧ u.fault = t.fault

theorem SameEffect.commit {u t : State} (h : SameEffect u t) (p : Word) : SameEffect (u.commit p) (t.commit p) := by
  obtain ⟨hr, hd, -, hf⟩ := h
  exact ⟨hr, hd, rfl, hf⟩

theorem SameEffect.advance {u t : State} (h : SameEffect u t) : SameEffect u.advance t.advance := by
  obtain ⟨-, -, hp, -⟩ := id h
  simpa only [State.advance, hp] using h.commit (pcPlusFour t.pc)

theorem SameEffect.writeReg {u t : State} (h : SameEffect u t) (d : RegIx) (v : Word) :
    SameEffect (u.writeReg d v) (t.writeReg d v) := by
  obtain ⟨hr, hd, hp, hf⟩ := h
  refine ⟨?_, by simpa, by simpa, by simpa⟩
  unfold State.writeReg
  split
  · exact hr
  · simp only [hr]

theorem sameEffect_setIcount (s : State) (n : BitVec 64) : SameEffect { s with icount := n } s := ⟨rfl, rfl, rfl, rfl⟩

theorem SameEffect.setDmem {u t : State} (h : SameEffect u t) (m : Memory) :
    SameEffect { u with dmem := m } { t with dmem := m } := by
  obtain ⟨hr, -, hp, hf⟩ := h
  exact ⟨hr, rfl, hp, hf⟩

theorem SameEffect.enterFault {u t : State} (h : SameEffect u t) (c : FaultCode) (a ir : Word) :
    SameEffect (u.enterFault c a ir) (t.enterFault c a ir) := by
  obtain ⟨hr, hd, hp, -⟩ := h
  exact ⟨hr, hd, hp, by simp [hp]⟩

/-- An instruction's effect on registers, data memory, pc and fault record does not depend on icount. -/
theorem exec_setIcount {i : Instr} {s t : State} (n : BitVec 64) (h : exec i s = .next t) :
    ∃ u, exec i { s with icount := n } = .next u ∧ SameEffect u t := by
  have base := sameEffect_setIcount s n
  cases i with
  | add d rs rt | sub d rs rt | addi d rs imm =>
    obtain rfl := Host.Outcome.next.inj h
    exact ⟨_, rfl, (base.writeReg d _).advance⟩
  | lwr =>
    obtain rfl := Host.Outcome.next.inj h
    exact ⟨_, rfl, base.advance⟩
  | j imm =>
    obtain rfl := Host.Outcome.next.inj h
    exact ⟨_, rfl, base.commit _⟩
  | beq rt rs imm =>
    by_cases hz : zeroFlag (aluOut .sub (s.readReg rs) (s.readReg rt)) = true
    · obtain rfl := Host.Outcome.next.inj ((if_pos hz).symm.trans h)
      exact ⟨_, if_pos hz, base.commit _⟩
    · obtain rfl := Host.Outcome.next.inj ((if_neg hz).symm.trans h)
      exact ⟨_, if_neg hz, base.advance⟩
  | lw rt rs imm =>
    cases ha : accessFault .load s.config.dmemBytes (s.effectiveAddr rs imm) with
    | some c =>
      obtain rfl := Host.Outcome.next.inj ((exec_lw_of_fault ha).symm.trans h)
      exact ⟨_, exec_lw_of_fault (s := { s with icount := n }) ha, base.enterFault c _ _⟩
    | none =>
      obtain rfl := Host.Outcome.next.inj ((exec_lw_of_no_fault ha).symm.trans h)
      exact ⟨_, exec_lw_of_no_fault (s := { s with icount := n }) ha, (base.writeReg rt _).advance⟩
  | sw rt rs imm =>
    cases ha : accessFault .store s.config.dmemBytes (s.effectiveAddr rs imm) with
    | some c =>
      obtain rfl := Host.Outcome.next.inj ((exec_sw_of_fault ha).symm.trans h)
      exact ⟨_, exec_sw_of_fault (s := { s with icount := n }) ha, base.enterFault c _ _⟩
    | none =>
      obtain rfl := Host.Outcome.next.inj ((exec_sw_of_no_fault ha).symm.trans h)
      exact ⟨_, exec_sw_of_no_fault (s := { s with icount := n }) ha, (base.setDmem _).advance⟩

/-- Settles O17: a completed step counts, a faulting one does not, and `exec_setIcount`. -/
theorem instructionCounter : Obligations.InstructionCounter := by
  refine ⟨?_, fun i s t n h => exec_setIcount n h⟩
  intro s t hs hst
  rcases step_completes_or_faults hs hst with ⟨w, p, -, -, hc⟩ | ⟨_, _, _, _, ⟨hseq, -, -, -, -, tcount, -⟩, -⟩
  · obtain ⟨-, tcount, -⟩ := id hc
    refine ⟨fun e => absurd e hc.seq_ne_faulted, fun _ => ?_⟩
    rw [tcount, BitVec.toNat_add]
    rfl
  · exact ⟨fun _ => tcount, fun hne => absurd hseq hne⟩

/-! ## Reset (10_state.md R34, R38) -/

/-- A data access leaves the kept record as it is and does not read it. -/
theorem dataAccess_setScratch (r q : Scratch) (s : State) :
    dataAccess r { s with scratch := q } =
      (dataAccess r s).map fun (memData, t) => (memData, { t with scratch := q }) := by
  have hload : loadAccess r { s with scratch := q } = loadAccess r s := rfl
  have hstore : storeAccess r { s with scratch := q } =
      (storeAccess r s).map fun t => { t with scratch := q } := by
    unfold storeAccess State.memWrite
    cases r.ctl.memWrite
    · rfl
    · cases accessFault .store s.config.dmemBytes r.aluResult <;> rfl
  simp only [dataAccess, hload, hstore]
  cases loadAccess r s with
  | error c => rfl
  | ok memData => cases storeAccess r s <;> rfl

theorem stepRecord_setScratch (s : State) (q : Scratch) (w : Word) :
    stepRecord { s with scratch := q } w = stepRecord s w := by
  have hregs (r : Scratch) : r.regRead { s with scratch := q } = r.regRead s := rfl
  simp only [stepRecord, dataAccess_setScratch, hregs]
  cases dataAccess (((Scratch.start s.pc).fetched w).decoded.regRead s).executed s <;> rfl

theorem stepInstr_setScratch (s : State) (q : Scratch) : stepInstr { s with scratch := q } = stepInstr s := by
  have hread : ({ s with scratch := q } : State).imemRead s.pc = s.imemRead s.pc := rfl
  simp only [stepInstr, hread, stepRecord_setScratch]

theorem step_of_fetch {s : State} (hs : s.seq = .fetch) : step s = stepInstr s := by simp only [step, hs]

/-- A step from FETCH reads no earlier record: it makes its own anew (10_state.md R34). -/
theorem step_setScratch {s : State} (hs : s.seq = .fetch) (q : Scratch) : step { s with scratch := q } = step s := by
  rw [step_of_fetch hs, step_of_fetch (s := { s with scratch := q }) hs, stepInstr_setScratch]

/-- The words of a loaded program lie in memory in their order (20_memory.md R67). -/
theorem readWord_loadWords (ws : List Word) {m : Memory} (h : m.wf = true) (a : Nat) {k : Nat} (hk : k < ws.length) :
    (loadWords m a ws).readWord (a + 4 * k) = ws[k] := by
  obtain ⟨-, -, hbyte, -⟩ := loadWords_spec ws m a h
  have h0 := hbyte k hk 0 (by decide)
  rw [Nat.add_zero] at h0
  rw [Memory.readWord, h0, hbyte k hk 1 (by decide), hbyte k hk 2 (by decide), hbyte k hk 3 (by decide),
    wordOfBytes_byteOfWord]

/-- Settles O18: release field by field, the program load, and the record made anew at the first step. -/
theorem resetValues : Obligations.ResetValues := by
  intro p hp
  obtain ⟨-, -, -, himem, -⟩ := Setup.wf_parts hp
  obtain ⟨-, hout, -, -⟩ := loadWords_spec p.program p.imemInit 0 himem
  refine ⟨rfl, State.readReg_released_zero p, fun k => State.readReg_released_succ p k.isLt, rfl, ?_, ?_, rfl, rfl, rfl,
    rfl, step_setScratch rfl⟩
  · intro k
    have e := readWord_loadWords p.program himem 0 k.isLt
    rwa [Nat.zero_add] at e
  · intro a ha
    exact hout a (.inr (by omega))

end Sys2Proof.Machine
end

section
/-! SUPPORT. The claims about the memories: the check of an access and the two interfaces, the word file and the program
load, and that only SW writes a memory. -/

namespace Sys2Proof.Machine

/-! ## The check of an access, on unbounded integers (20_memory.md R54 to R56) -/

theorem accessFault_of_misaligned (k : Access) (size : Nat) {a : Word} (h : a.toNat % 4 ≠ 0) :
    accessFault k size a = some (misalignedCode k) := by
  have ha : wordAligned a = false := by rwa [← Bool.not_eq_true, wordAligned_iff]
  simp [accessFault, ha]

theorem accessFault_of_outOfRange (k : Access) {size : Nat} {a : Word} (h : a.toNat % 4 = 0)
    (hr : a.toNat + 4 > size) : accessFault k size a = some (outOfRangeCode k) := by
  have hr' : inRange size a = false := by rw [← Bool.not_eq_true, inRange_iff]; omega
  simp [accessFault, (wordAligned_iff a).2 h, hr']

theorem accessFault_of_inside (k : Access) {size : Nat} {a : Word} (h : a.toNat % 4 = 0)
    (hr : a.toNat + 4 ≤ size) : accessFault k size a = none :=
  (accessFault_eq_none k size a).2 ⟨(wordAligned_iff a).2 h, (inRange_iff size a).2 hr⟩

/-- Settles O19: the three cases of the check. -/
theorem accessCheckOrder : Obligations.AccessCheckOrder := by
  intro k size a
  refine ⟨fun h => ?_, fun h hr => ?_, accessFault_of_inside k⟩
  · rw [accessFault_of_misaligned k size h]; rfl
  · rw [accessFault_of_outOfRange k h hr]; rfl

/-! ## What each access answers, by the check of its address (R59 to R61) -/

section Access

variable {s : State} {a v : Word} {c : FaultCode}

/-- An aligned fetch in range answers. -/
theorem State.imemRead_of_ok (ha : wordAligned a = true) (hr : inRange s.config.imemBytes a = true) :
    s.imemRead a = .ok (s.imem.readWord a.toNat) := by
  simp only [State.imemRead, (accessFault_eq_none .fetch s.config.imemBytes a).2 ⟨ha, hr⟩]

theorem State.memRead_eq_error : s.memRead a = .error c ↔ accessFault .load s.config.dmemBytes a = some c := by
  unfold State.memRead
  cases accessFault .load s.config.dmemBytes a <;> simp

theorem State.memWrite_eq_error : s.memWrite a v = .error c ↔ accessFault .store s.config.dmemBytes a = some c := by
  unfold State.memWrite
  cases accessFault .store s.config.dmemBytes a <;> simp

theorem State.imemRead_eq_error : s.imemRead a = .error c ↔ accessFault .fetch s.config.imemBytes a = some c := by
  unfold State.imemRead
  cases accessFault .fetch s.config.imemBytes a <;> simp

theorem State.exists_memRead_ok : (∃ w, s.memRead a = .ok w) ↔ accessFault .load s.config.dmemBytes a = none := by
  unfold State.memRead
  cases accessFault .load s.config.dmemBytes a <;> simp

theorem State.exists_memWrite_ok :
    (∃ t, s.memWrite a v = .ok t) ↔ accessFault .store s.config.dmemBytes a = none := by
  unfold State.memWrite
  cases accessFault .store s.config.dmemBytes a <;> simp

theorem State.exists_imemRead_ok : (∃ w, s.imemRead a = .ok w) ↔ accessFault .fetch s.config.imemBytes a = none := by
  unfold State.imemRead
  cases accessFault .fetch s.config.imemBytes a <;> simp

end Access

/-- A read word as the sum of its bytes, the lowest address highest (R57). -/
theorem Memory.readWord_toNat (m : Memory) (a : Nat) :
    (m.readWord a).toNat =
      (m.read a).toNat * 2 ^ 24 + (m.read (a + 1)).toNat * 2 ^ 16 + (m.read (a + 2)).toNat * 2 ^ 8 +
        (m.read (a + 3)).toNat := by
  rw [Memory.readWord, wordOfBytes_toNat]
  ring

/-- Settles O20: the check of a load, and the value of the word read. -/
theorem dataRead : Obligations.DataRead := by
  intro s a
  refine ⟨fun h => ?_, fun h hr => ?_, fun h hr => ?_⟩
  · exact State.memRead_eq_error.2 (accessFault_of_misaligned .load _ h)
  · exact State.memRead_eq_error.2 (accessFault_of_outOfRange .load h hr)
  · exact ⟨_, State.memRead_of_ok ((wordAligned_iff a).2 h) ((inRange_iff _ a).2 hr), s.dmem.readWord_toNat _⟩

/-- Settles O22: the check of a fetch, and the value of the word fetched. -/
theorem fetchRead : Obligations.FetchRead := by
  intro s a
  refine ⟨fun h => ?_, fun h hr => ?_, fun h hr => ?_⟩
  · exact State.imemRead_eq_error.2 (accessFault_of_misaligned .fetch _ h)
  · exact State.imemRead_eq_error.2 (accessFault_of_outOfRange .fetch h hr)
  · exact ⟨_, State.imemRead_of_ok ((wordAligned_iff a).2 h) ((inRange_iff _ a).2 hr), s.imem.readWord_toNat _⟩

/-- Settles O21: the check of a store, and the bytes of a written word inside and outside it. -/
theorem dataWrite : Obligations.DataWrite := by
  intro s a v hwf
  refine ⟨fun h => ?_, fun h hr => ?_, fun h hr => ?_⟩
  · exact State.memWrite_eq_error.2 (accessFault_of_misaligned .store _ h)
  · exact State.memWrite_eq_error.2 (accessFault_of_outOfRange .store h hr)
  · have inside {k : Nat} (hk : k < 4) := Memory.read_writeWord_inside hwf a.toNat v hk
    exact ⟨_, State.memWrite_of_ok v ((wordAligned_iff a).2 h) ((inRange_iff _ a).2 hr),
      inside (k := 0) (by decide), inside (k := 1) (by decide), inside (k := 2) (by decide), inside (k := 3) (by decide),
      fun _ => s.dmem.read_writeWord_outside a.toNat v, Memory.wf_writeWord hwf _ _, rfl⟩

/-! ## The interfaces (R64, R65) -/

/-- The fault signal of a checked access: 0 when the check passes, 1 on the misaligned code, 2 on the out-of-range
code. -/
theorem faultSignal_accessFault (k : Access) (size : Nat) (a : Word) :
    (faultSignal (accessFault k size a) = 0#2 ↔ accessFault k size a = none) ∧
    (faultSignal (accessFault k size a) = 1#2 ↔ accessFault k size a = some (misalignedCode k)) ∧
    (faultSignal (accessFault k size a) = 2#2 ↔ accessFault k size a = some (outOfRangeCode k)) := by
  rcases accessFault_cases k size a with ⟨-, e⟩ | ⟨-, -, e⟩ | ⟨-, -, e⟩ <;> rw [e] <;> cases k <;> decide

theorem State.imemPort_of_fetch {s : State} (h : s.seq = .fetch) :
    s.imemPort = ⟨some s.pc, true, readData (s.imemRead s.pc),
      faultSignal (accessFault .fetch s.config.imemBytes s.pc)⟩ := by
  simp [State.imemPort, h]

theorem State.imemPort_req {s : State} : s.imemPort.req = true ↔ s.seq = .fetch := by
  unfold State.imemPort
  split <;> simp [*]

/-- Settles O23: the port in FETCH, and its fault signal by the check of the fetch. -/
theorem instructionMemoryPort : Obligations.InstructionMemoryPort := by
  intro s
  refine ⟨State.imemPort_req, fun hs => ?_⟩
  rw [State.imemPort_of_fetch hs, State.exists_imemRead_ok, State.imemRead_eq_error, State.imemRead_eq_error]
  exact ⟨rfl, fun w hw => congrArg readData hw, faultSignal_accessFault .fetch _ _⟩

/-- No control row both reads and writes data memory (R65). -/
theorem controlUnit_not_both (f : BitVec 6) :
    ¬ ((controlUnit f).memRead = true ∧ (controlUnit f).memWrite = true) := by
  unfold controlUnit
  split_ifs <;> simp [ctlRow, ctlInert]

theorem dataAccess_of_no_access {r : Scratch} (hre : r.ctl.memRead = false) (hwe : r.ctl.memWrite = false)
    (s : State) : dataAccess r s = .ok (none, s) := by
  simp [dataAccess, loadAccess, storeAccess, hre, hwe]

theorem State.dmemPort_of_not_memory {s : State} (h : s.seq ≠ .memory) :
    s.dmemPort = ⟨none, false, false, none, none, 0#2⟩ := if_neg h

/-- Address, enables and write data in MEMORY, whatever the access. -/
theorem State.dmemPort_of_memory {s : State} (h : s.seq = .memory) :
    s.dmemPort.addr = some s.scratch.aluResult ∧ s.dmemPort.re = s.scratch.ctl.memRead ∧
    s.dmemPort.we = s.scratch.ctl.memWrite ∧ s.dmemPort.wdata = some s.scratch.rtVal := by
  simp [State.dmemPort, h]

theorem State.dmemPort_of_load {s : State} (h : s.seq = .memory) (hre : s.scratch.ctl.memRead = true) :
    s.dmemPort = ⟨some s.scratch.aluResult, true, s.scratch.ctl.memWrite, some s.scratch.rtVal,
      readData (s.memRead s.scratch.aluResult),
      faultSignal (accessFault .load s.config.dmemBytes s.scratch.aluResult)⟩ := by
  simp [State.dmemPort, h, hre]

theorem State.dmemPort_of_store {s : State} (h : s.seq = .memory) (hre : s.scratch.ctl.memRead = false)
    (hwe : s.scratch.ctl.memWrite = true) :
    s.dmemPort = ⟨some s.scratch.aluResult, false, true, some s.scratch.rtVal, none,
      faultSignal (accessFault .store s.config.dmemBytes s.scratch.aluResult)⟩ := by
  simp [State.dmemPort, h, hre, hwe]

theorem State.dmemPort_of_no_access {s : State} (h : s.seq = .memory) (hre : s.scratch.ctl.memRead = false)
    (hwe : s.scratch.ctl.memWrite = false) :
    s.dmemPort = ⟨some s.scratch.aluResult, false, false, some s.scratch.rtVal, none, 0#2⟩ := by
  simp [State.dmemPort, h, hre, hwe]

/-- MEMORY without an access goes on to WRITEBACK and leaves the state but for the record (40_datapath.md R128). -/
theorem stageMemory_of_no_access {s : State} (hre : s.scratch.ctl.memRead = false)
    (hwe : s.scratch.ctl.memWrite = false) :
    stageMemory s = { s with scratch := s.scratch.memoryDone none, seq := .writeback } := by
  simp only [stageMemory, dataAccess_of_no_access hre hwe]

/-- Settles O24: the port outside MEMORY, and in MEMORY for a load, a store and no access. -/
theorem dataMemoryPort : Obligations.DataMemoryPort := by
  refine ⟨controlUnit_not_both, fun s => ⟨fun h => ?_, fun h => ?_⟩⟩
  · simp [State.dmemPort_of_not_memory h]
  obtain ⟨haddr, hre, hwe, hwdata⟩ := State.dmemPort_of_memory h
  refine ⟨haddr, hre, hwe, hwdata, ?_, ?_, ?_⟩
  · intro hre
    rw [State.dmemPort_of_load h hre, State.exists_memRead_ok, State.memRead_eq_error, State.memRead_eq_error]
    exact ⟨fun v hv => congrArg readData hv, faultSignal_accessFault .load _ _⟩
  · intro hre hwe
    rw [State.dmemPort_of_store h hre hwe, State.exists_memWrite_ok, State.memWrite_eq_error, State.memWrite_eq_error]
    exact faultSignal_accessFault .store _ _
  · intro hre hwe
    rw [State.dmemPort_of_no_access h hre hwe, stageMemory_of_no_access hre hwe]
    exact ⟨rfl, rfl, fun _ => rfl⟩

/-! ## Which steps write a memory (R51, R70) -/

/-- A data access leaves instruction memory as it is. -/
theorem dataAccess_imem {r : Scratch} {s t : State} {d : Option Word} (h : dataAccess r s = .ok (d, t)) :
    t.imem = s.imem := by
  simp only [dataAccess, storeAccess] at h
  cases hl : loadAccess r s with
  | error c => simp [hl] at h
  | ok m =>
    cases hw : r.ctl.memWrite with
    | false =>
      obtain ⟨-, rfl⟩ : m = d ∧ s = t := by simpa [hl, hw] using h
      rfl
    | true =>
      cases hm : s.memWrite r.aluResult r.rtVal with
      | error c => simp [hl, hw, hm] at h
      | ok u =>
        obtain ⟨-, rfl⟩ : m = d ∧ u = t := by simpa [hl, hw, hm] using h
        obtain ⟨-, -, rfl⟩ := State.memWrite_ok hm
        rfl

theorem stageFetch_imem (s : State) : (stageFetch s).imem = s.imem := by
  unfold stageFetch; split <;> rfl

theorem stageMemory_imem (s : State) : (stageMemory s).imem = s.imem := by
  unfold stageMemory
  split
  · rfl
  · next h => exact (dataAccess_imem h :)

theorem writeBack_imem (r : Scratch) (s : State) : (writeBack r s).imem = s.imem := by
  unfold writeBack
  split
  · split <;> simp
  · rfl

theorem stage_imem {s t : State} (h : stage s = some t) : t.imem = s.imem := by
  cases hs : s.seq <;> simp only [stage, hs, Option.some.injEq, reduceCtorEq] at h <;> subst h
  case fetch => exact stageFetch_imem s
  case decode | regread | execute => rfl
  case memory => exact stageMemory_imem s
  case writeback => exact writeBack_imem s.scratch.wroteBack { s with scratch := s.scratch.wroteBack }

theorem finishStep_imem (n : Nat) (s : State) : (finishStep n s).imem = s.imem := by
  induction n generalizing s with
  | zero => rfl
  | succ n ih =>
    unfold finishStep
    split
    · split
      · next t ht => rw [ih t, stage_imem ht]
      · rfl
    · rfl

/-- In a sub-stage state the step is the rest of the instruction under way (log 8). -/
theorem step_of_midStep {s : State} (h : s.seq.midStep = true) : step s = .next (finishStep 5 s) := by
  cases hs : s.seq <;> simp_all [step, Seq.midStep]

/-- No step writes instruction memory: one under way goes through the sub-stages, one from FETCH completes or faults. -/
theorem step_imem {s t : State} (h : step s = .next t) : t.imem = s.imem := by
  cases hm : s.seq.midStep with
  | true =>
    obtain rfl := Host.Outcome.next.inj ((step_of_midStep hm).symm.trans h)
    exact finishStep_imem 5 s
  | false =>
    rcases step_completes_or_faults (seq_fetch_of_step_next hm h) h with
      ⟨_, _, -, -, -, -, -, -, himem, -⟩ | ⟨_, _, _, _, ⟨-, -, -, -, -, -, -, himem, -⟩, -⟩ <;> exact himem

/-- An instruction that changes a byte of data memory is SW, and the byte is one of the four it stores (R70). -/
theorem exec_dmem_changed {i : Instr} {s t : State} {b : Nat} (h : exec i s = .next t)
    (hb : t.dmem.read b ≠ s.dmem.read b) :
    ∃ rt rs imm, i = .sw rt rs imm ∧
      (s.effectiveAddr rs imm).toNat ≤ b ∧ b < (s.effectiveAddr rs imm).toNat + 4 := by
  rcases exec_cases i s with ⟨d, v, -, e⟩ | ⟨p, e, -⟩ | ⟨rt, rs, imm, hi, -, -, e⟩ | ⟨rt, rs, imm, c, -, e⟩ <;>
    obtain rfl := Host.Outcome.next.inj (e.symm.trans h)
  · simp at hb
  · simp at hb
  · refine ⟨rt, rs, imm, hi, ?_⟩
    by_contra hout
    exact hb (Memory.read_writeWord_outside s.dmem _ _ (by omega))
  · simp at hb

/-- Settles O28: `step_imem` for every state, and `exec_dmem_changed` for every instruction. -/
theorem onlyStoresWriteMemory : Obligations.OnlyStoresWriteMemory :=
  ⟨fun _ _ => step_imem, fun _ _ _ _ => exec_dmem_changed⟩

/-! ## The lines of the word file (R67) -/

/-- The lowest `k` hexadecimal digits of `n`, highest first. -/
def hexDigits : Nat → Nat → List Char
  | 0, _ => []
  | k + 1, n => digitOf (n / 16 ^ k % 16) :: hexDigits k n

@[simp] theorem length_hexDigits (k n : Nat) : (hexDigits k n).length = k := by
  induction k with
  | zero => rfl
  | succ k ih => simp [hexDigits, ih]

/-- The loader's line of a word: its eight digits and a newline. -/
theorem lineOfWord_eq (w : Word) : lineOfWord w = hexDigits 8 w.toNat ++ ['\n'] := by
  simp [lineOfWord, hexDigits]

theorem digitOf_ne_newline {d : Nat} (h : d < 16) : digitOf d ≠ '\n' := by
  revert d; decide

theorem newline_notMem_hexDigits (k n : Nat) : '\n' ∉ hexDigits k n := by
  induction k with
  | zero => simp [hexDigits]
  | succ k ih =>
    rw [hexDigits, List.mem_cons, not_or]
    exact ⟨(digitOf_ne_newline (Nat.mod_lt _ (by decide))).symm, ih⟩

theorem hexDigit_digitOf {d : Nat} (h : d < 16) : hexDigit (digitOf d) = some d := by
  revert d; decide

/-- The digits the loader reads are the sixteen it writes. -/
theorem hexDigit_eq_some {c : Char} {d : Nat} : hexDigit c = some d ↔ d < 16 ∧ c = digitOf d := by
  refine ⟨fun h => ?_, fun ⟨hd, hc⟩ => hc ▸ hexDigit_digitOf hd⟩
  unfold hexDigit at h
  split at h
  · next hc =>
    obtain ⟨hlo, hhi⟩ : 48 ≤ c.toNat ∧ c.toNat ≤ 57 := hc
    obtain rfl : c.toNat - 48 = d := Option.some.inj h
    have hnum : c.toNat - 48 < 10 := by omega
    have hback : '0'.toNat + (c.toNat - 48) = c.toNat := Nat.add_sub_cancel' hlo
    exact ⟨by omega, by rw [digitOf, if_pos hnum, hback, Char.ofNat_toNat]⟩
  · split at h
    · next hc =>
      obtain ⟨hlo, hhi⟩ : 97 ≤ c.toNat ∧ c.toNat ≤ 102 := hc
      obtain rfl : c.toNat - 97 + 10 = d := Option.some.inj h
      have hlet : ¬ c.toNat - 97 + 10 < 10 := by omega
      have hback : 'a'.toNat + (c.toNat - 97 + 10 - 10) = c.toNat := by
        rw [Nat.add_sub_cancel]; exact Nat.add_sub_cancel' hlo
      exact ⟨by omega, by rw [digitOf, if_neg hlet, hback, Char.ofNat_toNat]⟩
    · cases h

/-- Digits read after the value `acc` give `n` exactly when they are the lowest digits of `n` and `acc` is what stands
above them. -/
theorem hexValue_eq_some {cs : List Char} {acc n : Nat} :
    hexValue acc cs = some n ↔ cs = hexDigits cs.length n ∧ n / 16 ^ cs.length = acc := by
  induction cs generalizing acc with
  | nil => simp [hexValue, hexDigits, eq_comm]
  | cons c cs ih =>
    have hsplit : n / 16 ^ (cs.length + 1) = n / 16 ^ cs.length / 16 := by
      rw [Nat.pow_succ, Nat.div_div_eq_div_mul]
    simp only [List.length_cons, hexDigits, List.cons.injEq, hsplit]
    cases hc : hexDigit c with
    | some d =>
      obtain ⟨hd, rfl⟩ := hexDigit_eq_some.1 hc
      simp only [hexValue, hc, ih]
      constructor
      · rintro ⟨hcs, hv⟩
        have hmod : n / 16 ^ cs.length % 16 = d := by omega
        exact ⟨⟨by rw [hmod], hcs⟩, by omega⟩
      · rintro ⟨⟨he, hcs⟩, hv⟩
        have hmod : n / 16 ^ cs.length % 16 = d := by
          have h := hexDigit_digitOf (Nat.mod_lt (n / 16 ^ cs.length) (by decide : 16 > 0))
          rw [← he, hc] at h
          exact (Option.some.inj h).symm
        exact ⟨hcs, by omega⟩
    | none =>
      simp only [hexValue, hc, reduceCtorEq, false_iff]
      rintro ⟨⟨rfl, -⟩, -⟩
      rw [hexDigit_digitOf (Nat.mod_lt _ (by decide))] at hc
      cases hc

/-- A line is accepted as the word whose eight digits it is. -/
theorem wordOfLine_eq_some {line : List Char} {w : Word} :
    wordOfLine line = some w ↔ line = hexDigits 8 w.toNat := by
  constructor
  · intro h
    unfold wordOfLine at h
    split at h
    · next hlen =>
      split at h
      · next n hn =>
        obtain rfl := Option.some.inj h
        obtain ⟨hline, htop⟩ := hexValue_eq_some.1 hn
        rw [hlen] at hline htop
        have hw : (BitVec.ofNat 32 n).toNat = n := by rw [BitVec.toNat_ofNat]; omega
        rw [hw, hline]
      · cases h
    · cases h
  · rintro rfl
    have hv : hexValue 0 (hexDigits 8 w.toNat) = some w.toNat := by
      have := w.isLt
      rw [hexValue_eq_some, length_hexDigits]
      exact ⟨rfl, by omega⟩
    simp [wordOfLine, hv]

/-! ## The word file of a program (R67) -/

@[simp] theorem textOfWords_nil : textOfWords [] = [] := rfl

theorem textOfWords_cons (w : Word) (ws : List Word) :
    textOfWords (w :: ws) = hexDigits 8 w.toNat ++ '\n' :: textOfWords ws := by
  rw [textOfWords, List.flatMap_cons, lineOfWord_eq, List.append_assoc]
  rfl

/-- What stands before the first separator, and what after it, is determined. -/
theorem append_cons_inj_of_notMem_left {α : Type} {a : α} {x y u v : List α} (hx : a ∉ x) (hy : a ∉ y) :
    x ++ a :: u = y ++ a :: v ↔ x = y ∧ u = v := by
  induction x generalizing y with
  | nil => cases y <;> simp_all [eq_comm]
  | cons b x ih => cases y <;> simp_all [and_assoc, eq_comm]

/-- The loader reads, after the characters of `line`, the text of a program: one line a word. -/
theorem wordsOfText_eq_some {line cs : List Char} {ws : List Word} (hline : '\n' ∉ line) :
    wordsOfText line cs = some ws ↔ line.reverse ++ cs = textOfWords ws := by
  induction cs generalizing line ws with
  | nil =>
    cases ws with
    | nil => cases line <;> simp [wordsOfText]
    | cons w ws =>
      have hne : line.reverse ≠ textOfWords (w :: ws) := by
        intro e
        apply hline
        rw [← List.mem_reverse, e, textOfWords_cons]
        simp
      cases line <;> simpa [wordsOfText] using hne
  | cons c cs ih =>
    by_cases hc : c = '\n'
    · subst hc
      have hrest (us : List Word) : wordsOfText [] cs = some us ↔ cs = textOfWords us := by
        simpa using ih (line := []) (ws := us)
      cases ws with
      | nil =>
        simp only [wordsOfText, if_true, textOfWords_nil]
        split <;> simp
      | cons w ws =>
        rw [textOfWords_cons, append_cons_inj_of_notMem_left (by simpa using hline) (newline_notMem_hexDigits _ _),
          ← wordOfLine_eq_some, ← hrest]
        simp only [wordsOfText, if_true]
        cases wordOfLine line.reverse <;> cases wordsOfText [] cs <;> simp
    · rw [wordsOfText, if_neg hc, ih (by simp [hline, Ne.symm hc])]
      simp

theorem wordsOfText_nil_eq_some {cs : List Char} {ws : List Word} :
    wordsOfText [] cs = some ws ↔ cs = textOfWords ws := by
  simpa using wordsOfText_eq_some (line := []) (by simp)

/-- A text is accepted as a program exactly when it is the program's word file and the program fits. -/
theorem parseWordFile_eq_ok {c : Config} {text : List Char} {ws : List Word} :
    parseWordFile c text = .ok ws ↔ text = textOfWords ws ∧ ws.length ≤ c.imemBytes / 4 := by
  have hfit : ws.length ≤ c.imemBytes / 4 ↔ 4 * ws.length ≤ c.imemBytes := by omega
  rw [hfit, ← wordsOfText_nil_eq_some, parseWordFile]
  cases wordsOfText [] text with
  | none => simp
  | some us =>
    by_cases hl : 4 * us.length ≤ c.imemBytes
    · simp only [hl, if_true, Except.ok.injEq, Option.some.injEq, iff_self_and]
      rintro rfl
      exact hl
    · simp only [hl, if_false, reduceCtorEq, Option.some.injEq, false_iff, not_and]
      rintro rfl
      exact hl

/-! ## The program load (R67) -/

/-- A legal configuration has no byte past the 32-bit address space (00_scope.md R7). -/
theorem Config.imemBytes_le {c : Config} (h : c.wf = true) : c.imemBytes ≤ 2 ^ 32 := by
  simp only [Config.wf, sizeLegal, Bool.and_eq_true, decide_eq_true_eq] at h
  exact h.1.1.1.2

/-- A fetch at the place of a program word, after release, reads that word. -/
theorem imemRead_released {p : Setup} (hp : p.wf = true) {k : Nat} (hk : k < p.program.length) :
    (State.released p).imemRead (BitVec.ofNat 32 (4 * k)) = .ok p.program[k] := by
  obtain ⟨hcfg, hlen, -, himem, -⟩ := Setup.wf_parts hp
  have hsize := Config.imemBytes_le hcfg
  have haddr : (BitVec.ofNat 32 (4 * k)).toNat = 4 * k := by rw [BitVec.toNat_ofNat]; omega
  have haligned : wordAligned (BitVec.ofNat 32 (4 * k)) = true := (wordAligned_iff _).2 (by omega)
  have hrange : inRange (State.released p).config.imemBytes (BitVec.ofNat 32 (4 * k)) = true :=
    (inRange_iff p.config.imemBytes _).2 (by omega)
  rw [State.imemRead_of_ok haligned hrange, haddr]
  have hword := readWord_loadWords p.program himem 0 hk
  rw [Nat.zero_add] at hword
  exact congrArg Except.ok hword

/-- Reset is not released for a program longer than instruction memory. -/
theorem releaseReset_of_too_long (s : State) {p : Setup} (h : p.config.imemBytes / 4 < p.program.length) :
    s.releaseReset p = none := by
  refine if_neg fun ⟨_, hp⟩ => ?_
  obtain ⟨-, hlen, -⟩ := Setup.wf_parts hp
  omega

/-- Settles O26: the loader's verdict, the bytes after a load, the fetch after release, and the refused release. -/
theorem programLoad : Obligations.ProgramLoad := by
  refine ⟨fun _ _ _ => parseWordFile_eq_ok, fun m ws hm => ?_, fun p k hp => imemRead_released hp k.isLt,
    fun s p => releaseReset_of_too_long s⟩
  obtain ⟨-, hout, hbyte, -⟩ := loadWords_spec ws m 0 hm
  refine ⟨fun k => ?_, fun a ha => hout a (.inr (by omega))⟩
  have at_byte {j : Nat} (hj : j < 4) : (loadWords m 0 ws).read (4 * k.val + j) = byteOfWord ws[k.val] j := by
    simpa using hbyte k.val k.isLt j hj
  exact ⟨at_byte (j := 0) (by decide), at_byte (j := 1) (by decide), at_byte (j := 2) (by decide),
    at_byte (j := 3) (by decide)⟩

end Sys2Proof.Machine
end

section
/-! SUPPORT. The words of the three layouts, the answer of the decoder, the codec and the control unit for each func, and
the claims about encoding and decoding that follow. -/

namespace Sys2Proof

/-! ## DECODE's fields (30_encoding.md R84) -/

/-- Settles O3: DECODE writes the seven fields of the instruction register, each by its value as a number. -/
theorem fieldExtraction : Obligations.FieldExtraction := by
  intro s
  exact ⟨fieldFunc_toNat _, fieldRs_toNat _, fieldRt_toNat _, fieldRd_toNat _, fieldImm16_toNat _,
    fieldJimm26_toNat _, rfl⟩

/-! ## What the decoder answers for each func (R88, R89) -/

section

variable {w : Word}

theorem decode_of_funcAdd (h : fieldFunc w = funcAdd) :
    decode w = .ok (.add (fieldRd w) (fieldRs w) (fieldRt w)) := by simp only [decode, h]; rfl

theorem decode_of_funcSub (h : fieldFunc w = funcSub) :
    decode w = .ok (.sub (fieldRd w) (fieldRs w) (fieldRt w)) := by simp only [decode, h]; rfl

theorem decode_of_funcAddi (h : fieldFunc w = funcAddi) :
    decode w = .ok (.addi (fieldRt w) (fieldRs w) (fieldImm16 w)) := by simp only [decode, h]; rfl

theorem decode_of_funcLw (h : fieldFunc w = funcLw) :
    decode w = .ok (.lw (fieldRt w) (fieldRs w) (fieldImm16 w)) := by simp only [decode, h]; rfl

theorem decode_of_funcSw (h : fieldFunc w = funcSw) :
    decode w = .ok (.sw (fieldRt w) (fieldRs w) (fieldImm16 w)) := by simp only [decode, h]; rfl

theorem decode_of_funcBeq (h : fieldFunc w = funcBeq) :
    decode w = .ok (.beq (fieldRt w) (fieldRs w) (fieldImm16 w)) := by simp only [decode, h]; rfl

theorem decode_of_funcJ (h : fieldFunc w = funcJ) : decode w = .ok (.j (fieldJimm26 w)) := by
  simp only [decode, h]; rfl

end

/-! ## A word from its own fields (R81 to R83, R94) -/

/-- The fields of an R-type word make the word with its unused bits 0. -/
theorem encodeR_fields (w : Word) :
    encodeR (fieldFunc w) (fieldRd w) (fieldRs w) (fieldRt w) = w &&& 0xFFFFF800#32 := by
  have hmask : w &&& 0xFFFFF800#32 = w >>> 11 <<< 11 := (BitVec.shiftLeft_ushiftRight (n := 11)).symm
  apply BitVec.eq_of_toNat_eq
  rw [hmask, encodeR_toNat, fieldFunc_toNat, fieldRs_toNat, fieldRt_toNat, fieldRd_toNat, BitVec.toNat_shiftLeft,
    BitVec.toNat_ushiftRight, Nat.shiftLeft_eq, Nat.shiftRight_eq_div_pow]
  have := w.isLt
  omega

/-- The fields of an I-type word make the word. -/
theorem encodeI_fields (w : Word) : encodeI (fieldFunc w) (fieldRt w) (fieldRs w) (fieldImm16 w) = w := by
  apply BitVec.eq_of_toNat_eq
  rw [encodeI_toNat, fieldFunc_toNat, fieldRs_toNat, fieldRt_toNat, fieldImm16_toNat]
  have := w.isLt
  omega

/-- The fields of a J-type word make the word. -/
theorem encodeJ_fields (w : Word) : encodeJ (fieldFunc w) (fieldJimm26 w) = w := by
  apply BitVec.eq_of_toNat_eq
  rw [encodeJ_toNat, fieldFunc_toNat, fieldJimm26_toNat]
  have := w.isLt
  omega

/-- The bits of an instruction's word that its fields lie in: all but bits 10:0 of an R-type word, and func alone for
LWR (log 11). -/
def Instr.usedBits : Instr → Word
  | .add .. | .sub .. => 0xFFFFF800#32
  | .lwr => 0xFC000000#32
  | .addi .. | .lw .. | .sw .. | .beq .. | .j .. => BitVec.allOnes 32

/-- The encoder gives a decoded word back, with its unused bits 0. -/
theorem encode_of_decode {w : Word} {i : Instr} (h : decode w = .ok i) : encode i = w &&& i.usedBits := by
  rcases decode_cases h with ⟨hf, rfl⟩ | ⟨hf, rfl⟩ | ⟨hf, rfl⟩ | ⟨hf, rfl⟩ | ⟨hf, rfl⟩ | ⟨hf, rfl⟩ | ⟨hf, rfl⟩ |
    ⟨hf, rfl⟩ <;> simp only [encode, Instr.usedBits, BitVec.and_allOnes, ← hf]
  · exact encodeR_fields w
  · exact encodeR_fields w
  · exact (Laws.TableRow.and_mask w).symm
  · exact encodeI_fields w
  · exact encodeI_fields w
  · exact encodeI_fields w
  · exact encodeI_fields w
  · exact encodeJ_fields w

/-! ## The unused bits of an R-type word (R94) -/

section RLayout

variable (f : BitVec 6) (rs rt rd : RegIx) (u : BitVec 11)

/-- A value in bits 10:0 adds to the encoder's word. -/
theorem rLayout_toNat : (f ++ rs ++ rt ++ rd ++ u : BitVec (6 + 5 + 5 + 5 + 11)).toNat =
    (encodeR f rd rs rt).toNat + u.toNat := by
  simp only [encodeR, BitVec.toNat_append, Nat.shiftLeft_eq, BitVec.toNat_ofNat, Nat.zero_mod, Nat.or_zero]
  exact Machine.shift_or_eq_add 11 u.isLt

/-- The fields of an R-type word, whatever its bits 10:0. -/
theorem fields_rLayout {w : Word} (h : w = (f ++ rs ++ rt ++ rd ++ u : BitVec (6 + 5 + 5 + 5 + 11))) :
    fieldFunc w = f ∧ fieldRs w = rs ∧ fieldRt w = rt ∧ fieldRd w = rd := by
  have hw : w.toNat = (encodeR f rd rs rt).toNat + u.toNat := h ▸ rLayout_toNat f rs rt rd u
  rw [encodeR_toNat] at hw
  have := f.isLt; have := rs.isLt; have := rt.isLt; have := rd.isLt; have := u.isLt
  refine ⟨?_, ?_, ?_, ?_⟩ <;> apply BitVec.eq_of_toNat_eq
  · rw [fieldFunc_toNat]; omega
  · rw [fieldRs_toNat]; omega
  · rw [fieldRt_toNat]; omega
  · rw [fieldRd_toNat]; omega

/-- The encoder writes the unused bits 0. -/
theorem encodeR_unusedBits : (encodeR f rd rs rt).extractLsb' 0 11 = 0#11 := BitVec.extractLsb'_append_eq_right

end RLayout

/-- Settles O5: the fields of an R-type word do not read its unused bits, and an I-type or J-type word is determined by
its instruction. -/
theorem unusedBitsIgnored : Obligations.UnusedBitsIgnored := by
  refine ⟨fun rs rt rd u => ⟨?_, ?_⟩, fun rs rt rd => ⟨encodeR_unusedBits _ _ _ _, encodeR_unusedBits _ _ _ _⟩, ?_⟩
  · obtain ⟨hf, hrs, hrt, hrd⟩ := fields_rLayout funcAdd rs rt rd u rfl
    exact (decode_of_funcAdd hf).trans (by rw [hrs, hrt, hrd])
  · obtain ⟨hf, hrs, hrt, hrd⟩ := fields_rLayout funcSub rs rt rd u rfl
    exact (decode_of_funcSub hf).trans (by rw [hrs, hrt, hrd])
  · intro v w i hv hw hi
    have hused : i.usedBits = BitVec.allOnes 32 := by
      cases i with
      | add | sub | lwr => simp [Instr.func, funcAdd, funcSub, funcLwr] at hi
      | addi | lw | sw | beq | j => rfl
    calc v = encode i := by rw [encode_of_decode hv, hused, BitVec.and_allOnes]
      _ = w := by rw [encode_of_decode hw, hused, BitVec.and_allOnes]

/-! ## The word formulas (R103) -/

/-- The func value of a mnemonic (R89). -/
def Mnemonic.func : Mnemonic → BitVec 6
  | .add => funcAdd
  | .sub => funcSub
  | .addi => funcAddi
  | .lw => funcLw
  | .sw => funcSw
  | .beq => funcBeq
  | .j => funcJ

theorem encodeR_toNat_shift (f : BitVec 6) (rd rs rt : RegIx) :
    (encodeR f rd rs rt).toNat =
      (f.toNat <<< 26) ||| (rs.toNat <<< 21) ||| (rt.toNat <<< 16) ||| (rd.toNat <<< 11) := by
  simp only [encodeR, BitVec.toNat_append, Nat.shiftLeft_or_distrib, ← Nat.shiftLeft_add]
  exact Nat.or_zero _

theorem encodeI_toNat_shift (f : BitVec 6) (rt rs : RegIx) (n : Int) :
    (encodeI f rt rs (BitVec.ofInt 16 n)).toNat =
      (f.toNat <<< 26) ||| (rs.toNat <<< 21) ||| (rt.toNat <<< 16) ||| (n % 2 ^ 16).toNat := by
  simp only [encodeI, BitVec.toNat_append, BitVec.toNat_ofInt, Nat.shiftLeft_or_distrib, ← Nat.shiftLeft_add]
  rfl

theorem encodeJ_toNat_shift (f : BitVec 6) (n : Int) :
    (encodeJ f (BitVec.ofInt 26 n)).toNat = (f.toNat <<< 26) ||| (n % 2 ^ 26).toNat := by
  simp only [encodeJ, BitVec.toNat_append, BitVec.toNat_ofInt]
  rfl

namespace Machine

/-! ## Codec encode by the format of the mnemonic (R99 to R103) -/

/-- A legal register operand is the index of a register. -/
theorem regLegal_iff {n : Int} : regLegal n = true ↔ ∃ r : RegIx, n = regInt r := by
  simp only [regLegal, Bool.and_eq_true, decide_eq_true_eq, regInt]
  constructor
  · intro ⟨h0, h31⟩
    refine ⟨BitVec.ofInt 5 n, ?_⟩
    rw [BitVec.toNat_ofInt]
    omega
  · rintro ⟨r, rfl⟩
    have := r.isLt
    omega

@[simp] theorem regOperand_regInt (r : RegIx) : regOperand (regInt r) = .ok r := by
  rw [regOperand, if_pos (regLegal_iff.2 ⟨r, rfl⟩), regInt, BitVec.ofInt_natCast, BitVec.ofNat_toNat,
    BitVec.setWidth_eq]

theorem ofROperands_regInt (mk : RegIx → RegIx → RegIx → Instr) (rd rs rt : RegIx) :
    ofROperands mk [regInt rd, regInt rs, regInt rt] = .ok (mk rd rs rt) := by
  simp [ofROperands, rOperands, regOperands2]

theorem ofIOperands_regInt (mk : RegIx → RegIx → BitVec 16 → Instr) (rt rs : RegIx) (n : Int) :
    ofIOperands mk [regInt rt, regInt rs, n] = .ok (mk rt rs (BitVec.ofInt 16 n)) := by
  simp [ofIOperands, iOperands, regOperands2]

theorem encodeOp_of_format_r {m : Mnemonic} (hm : m.format = .r) (rd rs rt : RegIx) :
    encodeOp ⟨m, [regInt rd, regInt rs, regInt rt]⟩ = .ok (encodeR m.func rd rs rt) := by
  cases m with
  | add | sub => simp only [encodeOp, instrOfOp, ofROperands_regInt, encode, Mnemonic.func]
  | addi | lw | sw | beq | j => cases hm

theorem encodeOp_of_format_i {m : Mnemonic} (hm : m.format = .i) (rt rs : RegIx) (n : Int) :
    encodeOp ⟨m, [regInt rt, regInt rs, n]⟩ = .ok (encodeI m.func rt rs (BitVec.ofInt 16 n)) := by
  cases m with
  | addi | lw | sw | beq => simp only [encodeOp, instrOfOp, ofIOperands_regInt, encode, Mnemonic.func]
  | add | sub | j => cases hm

theorem eq_j_of_format {m : Mnemonic} (hm : m.format = .j) : m = .j := by
  cases m with
  | j => rfl
  | add | sub | addi | lw | sw | beq => cases hm

theorem encodeOp_j (n : Int) : encodeOp ⟨.j, [n]⟩ = .ok (encodeJ funcJ (BitVec.ofInt 26 n)) := rfl

/-- Settles O7: the word of each format, and its value as shifted fields. -/
theorem encodeWordFormulas : Obligations.EncodeWordFormulas := by
  refine ⟨fun rd rs rt => ⟨?_, ?_⟩, fun m f hmf rt rs n => ?_, fun n => ?_⟩
  · exact ⟨_, encodeOp_of_format_r rfl rd rs rt, encodeR_toNat_shift funcAdd rd rs rt⟩
  · exact ⟨_, encodeOp_of_format_r rfl rd rs rt, encodeR_toNat_shift funcSub rd rs rt⟩
  · have hrow : m.format = .i ∧ m.func.toNat = f := by
      simp only [List.mem_cons, Prod.mk.injEq, List.not_mem_nil, or_false] at hmf
      rcases hmf with ⟨rfl, rfl⟩ | ⟨rfl, rfl⟩ | ⟨rfl, rfl⟩ | ⟨rfl, rfl⟩ <;> decide
    obtain ⟨hm, rfl⟩ := hrow
    exact ⟨_, encodeOp_of_format_i hm rt rs n, encodeI_toNat_shift m.func rt rs n⟩
  · exact ⟨_, encodeOp_j n, encodeJ_toNat_shift funcJ n⟩

/-! ## Codec decode by func (R104) -/

section

variable {w : Word} {m : Mnemonic}

theorem decodeOp_of_format_r (hm : m.format = .r) (h : fieldFunc w = m.func) :
    decodeOp w = .op ⟨m, [regInt (fieldRd w), regInt (fieldRs w), regInt (fieldRt w)]⟩ := by
  cases m with
  | add => simp only [decodeOp, decode_of_funcAdd h, opOfInstr]
  | sub => simp only [decodeOp, decode_of_funcSub h, opOfInstr]
  | addi | lw | sw | beq | j => cases hm

theorem decodeOp_of_format_i (hm : m.format = .i) (h : fieldFunc w = m.func) :
    decodeOp w = .op ⟨m, [regInt (fieldRt w), regInt (fieldRs w), (fieldImm16 w).toInt]⟩ := by
  cases m with
  | addi => simp only [decodeOp, decode_of_funcAddi h, opOfInstr]
  | lw => simp only [decodeOp, decode_of_funcLw h, opOfInstr]
  | sw => simp only [decodeOp, decode_of_funcSw h, opOfInstr]
  | beq => simp only [decodeOp, decode_of_funcBeq h, opOfInstr]
  | add | sub | j => cases hm

theorem decodeOp_of_funcJ (h : fieldFunc w = funcJ) : decodeOp w = .op ⟨.j, [(fieldJimm26 w).toInt]⟩ := by
  simp only [decodeOp, decode_of_funcJ h, opOfInstr]

/-- A word with the func of no mnemonic: LWR, or rejected by the decoder. -/
theorem decodeOp_of_no_mnemonic (h : ∀ m : Mnemonic, fieldFunc w ≠ m.func) : decodeOp w = .unknown (fieldFunc w) := by
  cases hd : decode w with
  | error e => simp only [decodeOp, hd]
  | ok i =>
    rcases decode_cases hd with ⟨hf, -⟩ | ⟨hf, -⟩ | ⟨-, rfl⟩ | ⟨hf, -⟩ | ⟨hf, -⟩ | ⟨hf, -⟩ | ⟨hf, -⟩ | ⟨hf, -⟩
    · exact absurd hf (h .add)
    · exact absurd hf (h .sub)
    · simp only [decodeOp, hd, opOfInstr]
    · exact absurd hf (h .addi)
    · exact absurd hf (h .lw)
    · exact absurd hf (h .sw)
    · exact absurd hf (h .beq)
    · exact absurd hf (h .j)

end

/-- Settles O9: codec decode by the format of the mnemonic whose func the word has, or of no mnemonic. -/
theorem codecDecodeVerdicts : Obligations.CodecDecodeVerdicts := by
  intro w f rOps iOps
  have himm : ((fieldImm16 w).signExtend 32).toInt = (fieldImm16 w).toInt :=
    BitVec.toInt_signExtend_of_le (by decide)
  have hjimm : ((fieldJimm26 w).signExtend 32).toInt = (fieldJimm26 w).toInt :=
    BitVec.toInt_signExtend_of_le (by decide)
  have of_i (m : Mnemonic) (hm : m.format = .i) (h : f = m.func) : decodeOp w = .op ⟨m, iOps⟩ := by
    simp only [iOps, himm, decodeOp_of_format_i hm h]
  refine ⟨decodeOp_of_format_r (m := .add) rfl, decodeOp_of_format_r (m := .sub) rfl, of_i .addi rfl, of_i .lw rfl,
    of_i .sw rfl, of_i .beq rfl, fun h => ?_, fun h => decodeOp_of_no_mnemonic fun m hm => h ?_⟩
  · rw [hjimm]
    exact decodeOp_of_funcJ h
  · simp only [f, hm]
    cases m <;> decide

/-! ## Codec round trips (R105) -/

/-- What a legal operand list can be. -/
theorem AsmOp.legal_cases {o : AsmOp} (h : o.legal = true) :
    (∃ rd rs rt, o.mnemonic.format = .r ∧ o.ops = [regInt rd, regInt rs, regInt rt]) ∨
    (∃ rt rs n, o.mnemonic.format = .i ∧ imm16Legal n = true ∧ o.ops = [regInt rt, regInt rs, n]) ∨
    (∃ n, o.mnemonic.format = .j ∧ imm26Legal n = true ∧ o.ops = [n]) := by
  unfold AsmOp.legal at h
  split at h
  · next hm hops =>
    simp only [Bool.and_eq_true, regLegal_iff] at h
    obtain ⟨⟨⟨rd, rfl⟩, rs, rfl⟩, rt, rfl⟩ := h
    exact .inl ⟨rd, rs, rt, hm, hops⟩
  · next hm hops =>
    simp only [Bool.and_eq_true, regLegal_iff] at h
    obtain ⟨⟨⟨rt, rfl⟩, rs, rfl⟩, hn⟩ := h
    exact .inr (.inl ⟨rt, rs, _, hm, hn, hops⟩)
  · next hm hops => exact .inr (.inr ⟨_, hm, h, hops⟩)
  · cases h

theorem bmod_of_imm16Legal {n : Int} (h : imm16Legal n = true) : n.bmod (2 ^ 16) = n := by
  simp only [imm16Legal, Bool.and_eq_true, decide_eq_true_eq] at h
  exact Int.bmod_eq_of_le (by omega) (by omega)

theorem bmod_of_imm26Legal {n : Int} (h : imm26Legal n = true) : n.bmod (2 ^ 26) = n := by
  simp only [imm26Legal, Bool.and_eq_true, decide_eq_true_eq] at h
  exact Int.bmod_eq_of_le (by omega) (by omega)

/-- An R-type operand list comes back as it was. -/
theorem roundTrip_of_format_r {m : Mnemonic} (hm : m.format = .r) (rd rs rt : RegIx) :
    ∃ w, encodeOp ⟨m, [regInt rd, regInt rs, regInt rt]⟩ = .ok w ∧
      decodeOp w = .op ⟨m, [regInt rd, regInt rs, regInt rt]⟩ := by
  refine ⟨_, encodeOp_of_format_r hm rd rs rt, ?_⟩
  rw [decodeOp_of_format_r hm (fieldFunc_encodeR _ _ _ _), fieldRd_encodeR, fieldRs_encodeR, fieldRt_encodeR]

/-- An I-type operand list comes back with its immediate wrapped to 16 bits. -/
theorem roundTrip_of_format_i {m : Mnemonic} (hm : m.format = .i) (rt rs : RegIx) (n : Int) :
    ∃ w, encodeOp ⟨m, [regInt rt, regInt rs, n]⟩ = .ok w ∧
      decodeOp w = .op ⟨m, [regInt rt, regInt rs, n.bmod (2 ^ 16)]⟩ := by
  refine ⟨_, encodeOp_of_format_i hm rt rs n, ?_⟩
  rw [decodeOp_of_format_i hm (fieldFunc_encodeI _ _ _ _), fieldRt_encodeI, fieldRs_encodeI, fieldImm16_encodeI,
    BitVec.toInt_ofInt]

/-- A J operand comes back wrapped to 26 bits. -/
theorem roundTrip_j (n : Int) :
    ∃ w, encodeOp ⟨.j, [n]⟩ = .ok w ∧ decodeOp w = .op ⟨.j, [n.bmod (2 ^ 26)]⟩ := by
  refine ⟨_, encodeOp_j n, ?_⟩
  rw [decodeOp_of_funcJ (fieldFunc_encodeJ _ _), fieldJimm26_encodeJ, BitVec.toInt_ofInt]

theorem roundTrip_of_legal {o : AsmOp} (h : o.legal = true) : ∃ w, encodeOp o = .ok w ∧ decodeOp w = .op o := by
  obtain ⟨m, ops⟩ := o
  rcases AsmOp.legal_cases h with ⟨rd, rs, rt, hm, rfl⟩ | ⟨rt, rs, n, hm, hn, rfl⟩ | ⟨n, hm, hn, rfl⟩
  · exact roundTrip_of_format_r hm rd rs rt
  · simpa only [bmod_of_imm16Legal hn] using roundTrip_of_format_i hm rt rs n
  · obtain rfl := eq_j_of_format hm
    simpa only [bmod_of_imm26Legal hn] using roundTrip_j n

/-- A word that decodes to an operand list has the func of its mnemonic. -/
theorem exists_func_of_decodeOp {w : Word} {o : AsmOp} (h : decodeOp w = .op o) :
    ∃ m : Mnemonic, fieldFunc w = m.func := by
  by_contra hno
  rw [decodeOp_of_no_mnemonic (not_exists.1 hno)] at h
  cases h

/-- Codec encode gives a decoded word back, an R-type word with its unused bits 0. -/
theorem encodeOp_of_decodeOp {w : Word} {o : AsmOp} (h : decodeOp w = .op o) :
    encodeOp o = .ok (if o.mnemonic.format = .r then w &&& 0xFFFFF800#32 else w) := by
  obtain ⟨m, hf⟩ := exists_func_of_decodeOp h
  cases hm : m.format with
  | r =>
    obtain rfl := Verdict.op.inj ((decodeOp_of_format_r hm hf).symm.trans h)
    rw [encodeOp_of_format_r hm, ← hf, encodeR_fields, if_pos hm]
  | i =>
    obtain rfl := Verdict.op.inj ((decodeOp_of_format_i hm hf).symm.trans h)
    rw [encodeOp_of_format_i hm, BitVec.ofInt_toInt, ← hf, encodeI_fields, if_neg (by simp [hm])]
  | j =>
    obtain rfl := eq_j_of_format hm
    obtain rfl := Verdict.op.inj ((decodeOp_of_funcJ hf).symm.trans h)
    have hword : encodeJ funcJ (fieldJimm26 w) = w := (congrArg (encodeJ · _) hf.symm).trans (encodeJ_fields w)
    rw [encodeOp_j, BitVec.ofInt_toInt, hword]
    rfl

/-- Settles O8: the round trip of each format, the range in which wrapping changes nothing, and the word from its
fields. -/
theorem codecRoundTrip : Obligations.CodecRoundTrip :=
  ⟨fun _ => roundTrip_of_legal, fun _ rt rs n hm => roundTrip_of_format_i hm rt rs n, roundTrip_j,
    fun _ _ => encodeOp_of_decodeOp⟩

/-! ## The mnemonic lookup and the lines it rejects (R99) -/

theorem lookupMnemonic_eq_none {token : List Char} :
    lookupMnemonic token = none ↔
      token.map Char.toUpper ∉ ["ADD", "SUB", "ADDI", "LW", "SW", "BEQ", "J"].map String.toList := by
  simp only [lookupMnemonic, ite_eq_iff, reduceCtorEq, and_false, false_or, and_true, List.map_cons, List.map_nil,
    List.mem_cons, List.not_mem_nil, or_false, not_or]

/-- The lookup does not see case. -/
theorem lookupMnemonic_map_toUpper (token : List Char) :
    lookupMnemonic (token.map Char.toUpper) = lookupMnemonic token := by
  have hup : (token.map Char.toUpper).map Char.toUpper = token.map Char.toUpper := by
    rw [List.map_map]
    exact List.map_congr_left fun c _ => Char.toUpper_toUpper_eq_toUpper c
  simp only [lookupMnemonic, hup]

theorem encodeLine_of_unrecognized {line token : List Char} {operands : List (List Char)}
    (hline : (splitCommas line).map trim = token :: operands) (htoken : lookupMnemonic token = none) :
    encodeLine line = .error .unrecognizedMnemonic := by
  simp only [encodeLine, hline, htoken]

theorem assembleLine_of_encodeLine_error {line : List Char} {e : AsmError} (hread : ignoredLine line = false)
    (he : encodeLine line = .error e) : assembleLine line = .skipped e := by
  simp [assembleLine, hread, he]

theorem assemble_append (xs ys : List (List Char)) : assemble (xs ++ ys) = assemble xs ++ assemble ys := by
  induction xs with
  | nil => rfl
  | cons x xs ih =>
    simp only [List.cons_append, assemble, ih]
    cases assembleLine x <;> rfl

theorem assemble_cons_of_skipped {line : List Char} {why : AsmError} (h : assembleLine line = .skipped why)
    (lines : List (List Char)) : assemble (line :: lines) = assemble lines := by
  simp only [assemble, h]

/-- Settles O10: the lookup, its blindness to case, and the lines before and after a skipped one. -/
theorem unrecognizedMnemonicIsSkipped : Obligations.UnrecognizedMnemonicIsSkipped := by
  refine ⟨fun _ => lookupMnemonic_eq_none, lookupMnemonic_map_toUpper, by decide, by decide, by decide, by decide,
    by decide, by decide, by decide, by decide, ?_⟩
  intro line before after token operands hline htoken hread
  have hskip : assembleLine line = .skipped .unrecognizedMnemonic :=
    assembleLine_of_encodeLine_error hread (encodeLine_of_unrecognized hline (lookupMnemonic_eq_none.2 htoken))
  refine ⟨hskip, ?_⟩
  rw [assemble_append, assemble_cons_of_skipped hskip]

/-! ## The control table and its don't-care entries (R91) -/

theorem controlUnit_of_no_mnemonic {f : BitVec 6} (h : ∀ m : Mnemonic, f ≠ m.func) : controlUnit f = ctlInert :=
  (if_neg (h .add)).trans <| (if_neg (h .sub)).trans <| (if_neg (h .lw)).trans <| (if_neg (h .sw)).trans <|
    (if_neg (h .beq)).trans <| (if_neg (h .addi)).trans <| if_neg (h .j)

theorem writeBack_of_no_regWrite {r : Scratch} (h : r.ctl.regWrite = false) (s : State) : writeBack r s = s := by
  simp [writeBack, h]

/-- Without Branch the next pc does not depend on the ALU's outputs. -/
theorem selectPc_of_no_branch {r : Scratch} (h : r.ctl.branch = false) (z : Bool) (a : Word) :
    ({ r with zero := z, aluResult := a } : Scratch).selectPc = r.selectPc := by
  simp [Scratch.selectPc, h]

/-- Settles O11: the rows by func, and what a step does where a signal is 0. -/
theorem controlTable : Obligations.ControlTable := by
  refine ⟨control_add, control_sub, control_lw, control_sw, control_beq, control_addi, control_j, ?_,
    fun _ s h => writeBack_of_no_regWrite h s, fun _ s hre hwe => dataAccess_of_no_access hre hwe s,
    fun _ z a h => selectPc_of_no_branch h z a⟩
  intro f hf
  refine controlUnit_of_no_mnemonic fun m hm => hf ?_
  rw [hm]
  cases m <;> decide

end Machine

end Sys2Proof
end

section
/-! SUPPORT. The datapath's arithmetic, the commit of a step, the six sub-stages as one transition, and the claims about
the datapath that follow (40_datapath.md). -/

namespace Sys2Proof.Machine

/-! ## Targets and the ALU (R124 to R127) -/

/-- Settles O29: the mask keeps bits 31:28 of pc_plus4, and the shifted field lies below them. -/
theorem jumpTargetBits : Obligations.JumpTargetBits := by
  refine ⟨fun pc4 j => ?_, by decide⟩
  have hmask : pc4 &&& 0xF0000000#32 = pc4 >>> 28 <<< 28 := (BitVec.shiftLeft_ushiftRight (n := 28)).symm
  have hhigh : (pc4 >>> 28 <<< 28).toNat = pc4.toNat / 2 ^ 28 * 2 ^ 28 := by
    rw [BitVec.toNat_shiftLeft, BitVec.toNat_ushiftRight, Nat.shiftLeft_eq, Nat.shiftRight_eq_div_pow]
    omega
  have hfield : (j.setWidth 32 <<< 2).toNat = j.toNat * 4 := by
    rw [BitVec.toNat_shiftLeft, BitVec.toNat_setWidth, Nat.shiftLeft_eq]
    omega
  rw [jumpTargetOf, hmask, BitVec.toNat_or, hhigh, hfield]
  exact shift_or_eq_add 28 (by omega)

/-- The sign-extended immediate is the immediate modulo 2^32 (30_encoding.md R85). -/
theorem signExtImm_toNat (imm : BitVec 16) : ((signExtImm imm).toNat : Int) = imm.toInt % 2 ^ 32 := by
  have hsigned : (signExtImm imm).toInt = imm.toInt := BitVec.toInt_signExtend_of_le (by decide)
  have hlt := (signExtImm imm).isLt
  rw [← hsigned, BitVec.toInt_eq_toNat_cond]
  omega

/-- Settles O30: the shifted immediate is four times its value modulo 2^32. -/
theorem branchTargetArithmetic : Obligations.BranchTargetArithmetic := by
  refine ⟨fun pc4 imm => ?_, by decide⟩
  have hlow := BitVec.le_toInt imm
  have hhigh := BitVec.toInt_lt (x := imm)
  have hsimm := signExtImm_toNat imm
  rw [branchTargetOf, BitVec.toNat_add, BitVec.toNat_shiftLeft, Nat.shiftLeft_eq]
  omega

/-- Zero by the bits of the result (R127). -/
theorem zeroFlag_iff_bits (r : Word) : zeroFlag r = true ↔ ∀ k : Nat, k < 32 → r.getLsbD k = false := by
  rw [zeroFlag, beq_iff_eq, BitVec.zero_iff_eq_false]
  exact ⟨fun h k _ => h k, fun h k => (lt_or_ge k 32).elim (h k) (BitVec.getLsbD_of_ge r k)⟩

theorem zeroFlag_sub (a b : Word) : zeroFlag (a - b) = true ↔ a = b := by
  rw [zeroFlag, beq_iff_eq]
  exact sub_eq_zero

/-- Settles O31: the sum and the difference in each reading, and Zero by the bits and by the operands. -/
theorem aluArithmetic : Obligations.AluArithmetic := by
  intro a b
  refine ⟨BitVec.toNat_add a b, ?_, ?_, BitVec.toInt_add a b, BitVec.toInt_sub, fun _ => zeroFlag_iff_bits _,
    zeroFlag_sub a b⟩
  · change (a - b).toNat = _
    rw [BitVec.toNat_sub]
    omega
  · change a - b = _
    rw [BitVec.sub_eq_add_neg, BitVec.neg_eq_not_add, BitVec.add_assoc]

/-! ## The termination check (R132) -/

section

variable {c : Config} {pc : Word} {n : BitVec 64}

theorem terminationSeq_of_sentinel_le (h : c.sentinel.toNat ≤ pc.toNat) :
    terminationSeq c pc n = .haltedSentinel := if_pos h

theorem terminationSeq_of_zero (h : pc.toNat < c.sentinel.toNat) (h0 : pc = 0#32) :
    terminationSeq c pc n = .haltedLoop := (if_neg (Nat.not_le.2 h)).trans (if_pos h0)

/-- Below SENTINEL and away from 0 the guard decides. -/
theorem terminationSeq_of_running (h : pc.toNat < c.sentinel.toNat) (h0 : pc ≠ 0#32) :
    terminationSeq c pc n = if limitReached c n then .stoppedLimit else .fetch :=
  (if_neg (Nat.not_le.2 h)).trans (if_neg h0)

end

theorem limitReached_of_none {c : Config} (h : c.stepLimit = none) (n : BitVec 64) : limitReached c n = false := by
  simp only [limitReached, h]

theorem limitReached_of_some {c : Config} {k : Nat} (h : c.stepLimit = some k) (n : BitVec 64) :
    limitReached c n = decide (k ≤ n.toNat) := by
  simp only [limitReached, h]

/-! ## The six sub-stages as one transition (R120 to R133) -/

/-- The record at the end of EXECUTE when the word `ir` is fetched in state `s`. -/
def executeRecord (s : State) (ir : Word) : Scratch :=
  (((Scratch.start s.pc).fetched ir).decoded.regRead s).executed

/-- MEMORY, WRITEBACK and the commit from a record at the end of EXECUTE (R128 to R131). -/
def finishFromExecute (r : Scratch) (s : State) : State :=
  match dataAccess r s with
  | .error c => ({ s with scratch := r }).enterFault c r.aluResult r.ir
  | .ok (memData, t) =>
    (writeBack (r.memoryDone memData).wroteBack { t with scratch := (r.memoryDone memData).wroteBack }).commit
      r.selectPc

/-- A data access reads neither the kept record nor the sequencer, and leaves both. -/
theorem dataAccess_setStage (r q : Scratch) (e : Seq) (s : State) :
    dataAccess r { s with scratch := q, seq := e } =
      (dataAccess r s).map fun (memData, t) => (memData, { t with scratch := q, seq := e }) := by
  have hload : loadAccess r { s with scratch := q, seq := e } = loadAccess r s := rfl
  have hstore : storeAccess r { s with scratch := q, seq := e } =
      (storeAccess r s).map fun t => { t with scratch := q, seq := e } := by
    unfold storeAccess State.memWrite
    cases r.ctl.memWrite
    · rfl
    · cases accessFault .store s.config.dmemBytes r.aluResult <;> rfl
  simp only [dataAccess, hload, hstore]
  cases loadAccess r s with
  | error c => rfl
  | ok memData => cases storeAccess r s <;> rfl

/-- The commit decides the sequencer, whatever it was before the register write. -/
theorem writeBack_setSeq_commit (r : Scratch) (q : Seq) (s : State) (p : Word) :
    (writeBack r { s with seq := q }).commit p = (writeBack r s).commit p := by
  unfold writeBack
  cases r.ctl.regWrite
  · rfl
  · cases r.wbValue with
    | none => rfl
    | some v => by_cases h : r.wbIndex = 0#5 <;> simp [State.writeReg, State.commit, h]

theorem stageFetch_of_error {s : State} {c : FaultCode} (h : s.imemRead s.pc = .error c) :
    stageFetch s = ({ s with scratch := Scratch.start s.pc }).enterFault c s.pc 0#32 := by
  simp only [stageFetch, h]

theorem stageFetch_of_ok {s : State} {ir : Word} (h : s.imemRead s.pc = .ok ir) :
    stageFetch s = { s with scratch := (Scratch.start s.pc).fetched ir, seq := .decode } := by
  simp only [stageFetch, h]

/-- From the end of EXECUTE the remaining sub-stages are `finishFromExecute`. -/
theorem stageMemory_then_writeback (r : Scratch) (s : State) :
    (if (stageMemory { s with scratch := r, seq := .memory }).seq = .writeback then
      stageWriteback (stageMemory { s with scratch := r, seq := .memory })
    else stageMemory { s with scratch := r, seq := .memory }) = finishFromExecute r s := by
  unfold stageMemory finishFromExecute
  simp only [dataAccess_setStage]
  cases dataAccess r s with
  | error c => rfl
  | ok a => exact writeBack_setSeq_commit _ .writeback { a.2 with scratch := (r.memoryDone a.1).wroteBack } _

/-- The six sub-stages of a fetched word. -/
theorem sequencedStep_of_ok {s : State} {ir : Word} (h : s.imemRead s.pc = .ok ir) :
    sequencedStep s = finishFromExecute (executeRecord s ir) s := by
  rw [sequencedStep, stageFetch_of_ok h, finishStep_decode rfl]
  exact stageMemory_then_writeback (executeRecord s ir) s

/-- A fetch fault ends the datapath's step at once (60_exceptions.md R183). -/
theorem sequencedStep_of_error {s : State} {c : FaultCode} (h : s.imemRead s.pc = .error c) :
    sequencedStep s = ({ s with scratch := Scratch.start s.pc }).enterFault c s.pc 0#32 := by
  rw [sequencedStep, stageFetch_of_error h]
  rfl

/-- BEQ only commits; Zero chooses the pc (43_control_transfer.md R160). -/
theorem exec_beq (rt rs : RegIx) (imm : BitVec 16) (s : State) :
    exec (.beq rt rs imm) s = .next (s.commit
      (if zeroFlag (aluOut .sub (s.readReg rs) (s.readReg rt)) then branchTargetOf (pcPlusFour s.pc) (signExtImm imm)
      else pcPlusFour s.pc)) := by
  simp only [exec, execBeq]
  split <;> rfl

theorem advance_writeReg (s : State) (i : RegIx) (v : Word) :
    (s.writeReg i v).advance = (s.writeReg i v).commit (pcPlusFour s.pc) := by
  rw [State.advance, State.writeReg_pc]

/-- The register write leaves the record. -/
@[simp] theorem writeBack_scratch (r : Scratch) (s : State) : (writeBack r s).scratch = s.scratch := by
  unfold writeBack
  split
  · split <;> simp
  · rfl

/-! ## A data access and a register write by their control signals (R128, R130) -/

section

variable {r : Scratch}

theorem dataAccess_of_load (hre : r.ctl.memRead = true) (hwe : r.ctl.memWrite = false) (s : State) :
    dataAccess r s = (s.memRead r.aluResult).map fun v => (some v, s) := by
  simp only [dataAccess, loadAccess, storeAccess, hre, hwe, if_true]
  cases s.memRead r.aluResult <;> rfl

theorem dataAccess_of_store (hre : r.ctl.memRead = false) (hwe : r.ctl.memWrite = true) (s : State) :
    dataAccess r s = (s.memWrite r.aluResult r.rtVal).map fun t => (none, t) := by
  simp only [dataAccess, loadAccess, storeAccess, hre, hwe, if_true]
  cases s.memWrite r.aluResult r.rtVal <;> rfl

theorem writeBack_of_alu (hw : r.ctl.regWrite = true) (hm : r.ctl.memToReg = false) (d : Option Word) (s : State) :
    writeBack (r.memoryDone d).wroteBack s = s.writeReg r.wbIndex r.aluResult := by
  simp [writeBack, Scratch.memoryDone, Scratch.wroteBack, hw, hm]

theorem writeBack_of_no_write (hw : r.ctl.regWrite = false) (d : Option Word) (s : State) :
    writeBack (r.memoryDone d).wroteBack s = s := writeBack_of_no_regWrite (r := (r.memoryDone d).wroteBack) hw s

theorem writeBack_of_loaded (hw : r.ctl.regWrite = true) (hm : r.ctl.memToReg = true) (v : Word) (s : State) :
    writeBack (r.memoryDone (some v)).wroteBack s = s.writeReg r.wbIndex v := by
  simp [writeBack, Scratch.memoryDone, Scratch.wroteBack, hw, hm]

end

/-! ## The datapath's step by its data access (R128 to R133) -/

section

variable {s : State} {ir : Word}

/-- The record of a step whose data access answers is complete. -/
theorem stepRecord_of_access_ok {d : Option Word} {t : State} (h : dataAccess (executeRecord s ir) s = .ok (d, t)) :
    stepRecord s ir = ((executeRecord s ir).memoryDone d).wroteBack := by
  unfold executeRecord at h ⊢
  simp only [stepRecord, h]

/-- The record of a step whose data access faults ends at EXECUTE. -/
theorem stepRecord_of_access_error {c : FaultCode} (h : dataAccess (executeRecord s ir) s = .error c) :
    stepRecord s ir = executeRecord s ir := by
  unfold executeRecord at h ⊢
  simp only [stepRecord, h]

theorem sequencedStep_of_access_ok (hf : s.imemRead s.pc = .ok ir) {d : Option Word} {t : State}
    (h : dataAccess (executeRecord s ir) s = .ok (d, t)) :
    sequencedStep s =
      (writeBack ((executeRecord s ir).memoryDone d).wroteBack { t with scratch := stepRecord s ir }).commit
        (executeRecord s ir).selectPc := by
  simp only [sequencedStep_of_ok hf, finishFromExecute, stepRecord_of_access_ok h, h]

theorem sequencedStep_of_access_error (hf : s.imemRead s.pc = .ok ir) {c : FaultCode}
    (h : dataAccess (executeRecord s ir) s = .error c) :
    sequencedStep s =
      ({ s with scratch := stepRecord s ir } : State).enterFault c (executeRecord s ir).aluResult ir := by
  simp only [sequencedStep_of_ok hf, finishFromExecute, stepRecord_of_access_error h, h]
  rfl

/-! ## The record at the end of EXECUTE by its control row (R123, R126, R129) -/

theorem executeRecord_aluResult : (executeRecord s ir).aluResult =
    aluOut (controlUnit (fieldFunc ir)).aluOp (s.readReg (fieldRs ir))
      (if (controlUnit (fieldFunc ir)).aluSrc then signExtImm (fieldImm16 ir) else s.readReg (fieldRt ir)) := rfl

theorem executeRecord_wbIndex : (executeRecord s ir).wbIndex =
    if (controlUnit (fieldFunc ir)).regDst then fieldRd ir else fieldRt ir := rfl

theorem executeRecord_selectPc : (executeRecord s ir).selectPc =
    if (controlUnit (fieldFunc ir)).jump then jumpTargetOf (pcPlusFour s.pc) (fieldJimm26 ir)
    else if (controlUnit (fieldFunc ir)).branch && zeroFlag (executeRecord s ir).aluResult then
      branchTargetOf (pcPlusFour s.pc) (signExtImm (fieldImm16 ir))
    else pcPlusFour s.pc := rfl

/-! ## The datapath's step for each shape of control row (30_encoding.md R91) -/

/-- A row that writes the ALU's result to a register: ADD, SUB and ADDI. -/
theorem sequencedStep_of_alu (hf : s.imemRead s.pc = .ok ir) {regDst aluSrc : Bool} {op : AluOp}
    (hc : controlUnit (fieldFunc ir) = ctlRow regDst false false false false op false aluSrc true) :
    sequencedStep s =
      (({ s with scratch := stepRecord s ir } : State).writeReg (if regDst then fieldRd ir else fieldRt ir)
        (aluOut op (s.readReg (fieldRs ir))
          (if aluSrc then signExtImm (fieldImm16 ir) else s.readReg (fieldRt ir)))).advance := by
  have hctl : (executeRecord s ir).ctl = _ := hc
  have hacc := dataAccess_of_no_access (congrArg Ctl.memRead hctl) (congrArg Ctl.memWrite hctl) s
  rw [sequencedStep_of_access_ok hf hacc, writeBack_of_alu (congrArg Ctl.regWrite hctl) (congrArg Ctl.memToReg hctl),
    executeRecord_selectPc, executeRecord_wbIndex, executeRecord_aluResult, hc, advance_writeReg]
  rfl

/-- A row that writes neither a register nor memory: BEQ, J and the inert row. -/
theorem sequencedStep_of_commit (hf : s.imemRead s.pc = .ok ir) {jump branch : Bool} {op : AluOp}
    (hc : controlUnit (fieldFunc ir) = ctlRow false jump branch false false op false false false) :
    sequencedStep s = ({ s with scratch := stepRecord s ir } : State).commit
      (if jump then jumpTargetOf (pcPlusFour s.pc) (fieldJimm26 ir)
      else if branch && zeroFlag (aluOut op (s.readReg (fieldRs ir)) (s.readReg (fieldRt ir))) then
        branchTargetOf (pcPlusFour s.pc) (signExtImm (fieldImm16 ir))
      else pcPlusFour s.pc) := by
  have hctl : (executeRecord s ir).ctl = _ := hc
  have hacc := dataAccess_of_no_access (congrArg Ctl.memRead hctl) (congrArg Ctl.memWrite hctl) s
  rw [sequencedStep_of_access_ok hf hacc, writeBack_of_no_write (congrArg Ctl.regWrite hctl), executeRecord_selectPc,
    executeRecord_aluResult, hc]
  rfl

/-- A row that adds the immediate computes the effective address of LW and SW. -/
theorem executeRecord_aluResult_of_address {memRead memToReg memWrite regWrite : Bool}
    (hc : controlUnit (fieldFunc ir) = ctlRow false false false memRead memToReg .add memWrite true regWrite) :
    (executeRecord s ir).aluResult = s.effectiveAddr (fieldRs ir) (fieldImm16 ir) := by
  rw [executeRecord_aluResult, hc]
  rfl

/-- LW's own meaning is the datapath's step under LW's row (42_load_store.md R150). -/
theorem exec_lw_eq_sequencedStep (hf : s.imemRead s.pc = .ok ir) (hfunc : fieldFunc ir = funcLw) :
    exec (.lw (fieldRt ir) (fieldRs ir) (fieldImm16 ir)) { s with scratch := stepRecord s ir } =
      .next (sequencedStep s) := by
  have hc := (congrArg controlUnit hfunc).trans control_lw
  have hctl : (executeRecord s ir).ctl = _ := hc
  have haddr := executeRecord_aluResult_of_address (s := s) hc
  have hacc := dataAccess_of_load (congrArg Ctl.memRead hctl) (congrArg Ctl.memWrite hctl) s
  rw [haddr] at hacc
  cases ha : accessFault .load s.config.dmemBytes (s.effectiveAddr (fieldRs ir) (fieldImm16 ir)) with
  | some c =>
    rw [State.memRead_eq_error.2 ha] at hacc
    rw [sequencedStep_of_access_error hf hacc, haddr, stepRecord_of_access_error hacc]
    exact exec_lw_of_fault (s := { s with scratch := executeRecord s ir }) ha
  | none =>
    obtain ⟨haligned, hrange⟩ := (accessFault_eq_none _ _ _).1 ha
    rw [State.memRead_of_ok haligned hrange] at hacc
    rw [sequencedStep_of_access_ok hf hacc, writeBack_of_loaded (congrArg Ctl.regWrite hctl)
      (congrArg Ctl.memToReg hctl), executeRecord_wbIndex, executeRecord_selectPc, hc,
      exec_lw_of_no_fault (s := { s with scratch := stepRecord s ir }) ha, advance_writeReg]
    rfl

/-- SW's own meaning is the datapath's step under SW's row (R151). -/
theorem exec_sw_eq_sequencedStep (hf : s.imemRead s.pc = .ok ir) (hfunc : fieldFunc ir = funcSw) :
    exec (.sw (fieldRt ir) (fieldRs ir) (fieldImm16 ir)) { s with scratch := stepRecord s ir } =
      .next (sequencedStep s) := by
  have hc := (congrArg controlUnit hfunc).trans control_sw
  have hctl : (executeRecord s ir).ctl = _ := hc
  have haddr := executeRecord_aluResult_of_address (s := s) hc
  have hacc := dataAccess_of_store (congrArg Ctl.memRead hctl) (congrArg Ctl.memWrite hctl) s
  rw [haddr] at hacc
  cases ha : accessFault .store s.config.dmemBytes (s.effectiveAddr (fieldRs ir) (fieldImm16 ir)) with
  | some c =>
    rw [State.memWrite_eq_error.2 ha] at hacc
    rw [sequencedStep_of_access_error hf hacc, haddr, stepRecord_of_access_error hacc]
    exact exec_sw_of_fault (s := { s with scratch := executeRecord s ir }) ha
  | none =>
    obtain ⟨haligned, hrange⟩ := (accessFault_eq_none _ _ _).1 ha
    rw [State.memWrite_of_ok _ haligned hrange] at hacc
    rw [sequencedStep_of_access_ok hf hacc, writeBack_of_no_write (congrArg Ctl.regWrite hctl),
      executeRecord_selectPc, hc]
    exact exec_sw_of_no_fault (s := { s with scratch := stepRecord s ir }) ha

end

/-- Every instruction's own meaning is the datapath's step under its control row (R133). -/
theorem exec_eq_sequencedStep {s : State} {ir : Word} {i : Instr} (hf : s.imemRead s.pc = .ok ir)
    (hd : decode ir = .ok i) :
    exec i { s with scratch := stepRecord s ir } = .next (sequencedStep s) := by
  rcases decode_cases hd with ⟨hfunc, rfl⟩ | ⟨hfunc, rfl⟩ | ⟨hfunc, rfl⟩ | ⟨hfunc, rfl⟩ | ⟨hfunc, rfl⟩ |
    ⟨hfunc, rfl⟩ | ⟨hfunc, rfl⟩ | ⟨hfunc, rfl⟩ <;> have hc := congrArg controlUnit hfunc
  · rw [sequencedStep_of_alu hf (hc.trans control_add)]; rfl
  · rw [sequencedStep_of_alu hf (hc.trans control_sub)]; rfl
  · rw [sequencedStep_of_commit hf (hc.trans control_lwr)]; rfl
  · rw [sequencedStep_of_alu hf (hc.trans control_addi)]; rfl
  · exact exec_lw_eq_sequencedStep hf hfunc
  · exact exec_sw_eq_sequencedStep hf hfunc
  · rw [sequencedStep_of_commit hf (hc.trans control_beq), exec_beq]; rfl
  · rw [sequencedStep_of_commit hf (hc.trans control_j)]; rfl

/-- Settles O33: a fetch fault, `exec_eq_sequencedStep` for a word that decodes, and the inert row for one that does
not. -/
theorem stepRefinesSixStages : Obligations.StepRefinesSixStages := by
  intro s hs
  rcases step_fetch_cases hs with ⟨c, hf, e⟩ | ⟨ir, i, hf, hd, e⟩ | ⟨ir, _, hf, hd, e⟩ <;> rw [e]
  · rw [sequencedStep_of_error hf]
  · exact exec_eq_sequencedStep hf hd
  · rw [sequencedStep_of_commit hf (control_of_reject hd)]
    rfl

/-! ## The committed pc (R131) -/

/-- A step through the sub-stages that does not fault commits the next pc of its record. -/
theorem sequencedStep_pc {s : State} (h : (sequencedStep s).seq ≠ .faulted) :
    (sequencedStep s).pc = (sequencedStep s).scratch.nextPc := by
  cases hf : s.imemRead s.pc with
  | error c => exact absurd (by rw [sequencedStep_of_error hf]; rfl) h
  | ok ir =>
    cases hacc : dataAccess (executeRecord s ir) s with
    | error c => exact absurd (by rw [sequencedStep_of_access_error hf hacc]; rfl) h
    | ok a =>
      rw [sequencedStep_of_access_ok (d := a.1) (t := a.2) hf hacc, State.commit_pc, State.commit_scratch,
        writeBack_scratch, stepRecord_of_access_ok (d := a.1) (t := a.2) hacc]
      rfl

/-- Settles O32: the record's next pc by `stepRefinesSixStages`, the count by `Completed`, and R132's cases in order. -/
theorem commitAndTermination : Obligations.CommitAndTermination := by
  intro s t hs hst hne
  have hpc : t.pc = t.scratch.nextPc := by
    obtain rfl := Host.Outcome.next.inj ((stepRefinesSixStages s hs).symm.trans hst)
    exact sequencedStep_pc hne
  rcases step_completes_or_faults hs hst with
    ⟨w, p, -, -, tpc, tcount, tseq, tconfig, -⟩ | ⟨_, _, _, _, ⟨tseq, -⟩, -⟩
  · have hseq : t.seq = terminationSeq t.config t.pc t.icount := by rw [tseq, tconfig, tpc, tcount]
    refine ⟨hpc, tcount, fun h => hseq.trans (terminationSeq_of_sentinel_le h),
      fun h h0 => hseq.trans (terminationSeq_of_zero h h0), fun h h0 => ?_⟩
    rw [hseq, terminationSeq_of_running h h0]
    refine ⟨fun n hn hle => ?_, fun n hn hlt => ?_, fun hn => ?_⟩
    · simp [limitReached_of_some hn, hle]
    · simp [limitReached_of_some hn, hlt]
    · simp [limitReached_of_none hn]
  · exact absurd tseq hne

end Sys2Proof.Machine
end

section
/-! SUPPORT. Zero of a step's record by its control row, what a step that writes one register and advances leaves, and
the claims about ADD, SUB and ADDI that follow (41_alu_ops.md). -/

namespace Sys2Proof.Machine

/-! ## Zero of a step's record (40_datapath.md R126, R127) -/

/-- MEMORY and WRITEBACK leave Zero as EXECUTE computes it, whatever the data access answers. -/
theorem stepRecord_zero (s : State) (ir : Word) : (stepRecord s ir).zero = zeroFlag (executeRecord s ir).aluResult := by
  cases h : dataAccess (executeRecord s ir) s with
  | error c => rw [stepRecord_of_access_error h]; rfl
  | ok a => rw [stepRecord_of_access_ok (d := a.1) (t := a.2) h]; rfl

/-- Zero is of the ALU's result under ALUOp and ALUSrc; the row's other signals do not enter. -/
theorem stepRecord_zero_of_row (s : State) {ir : Word}
    {regDst jump branch memRead memToReg memWrite aluSrc regWrite : Bool} {op : AluOp}
    (hc : controlUnit (fieldFunc ir) = ctlRow regDst jump branch memRead memToReg op memWrite aluSrc regWrite) :
    (stepRecord s ir).zero = zeroFlag (aluOut op (s.readReg (fieldRs ir))
      (if aluSrc then signExtImm (fieldImm16 ir) else s.readReg (fieldRt ir))) := by
  rw [stepRecord_zero, executeRecord_aluResult, hc]
  rfl

/-- Zero of an R-type word whose row takes both operands from registers, whatever its bits 10:0. -/
theorem stepRecord_zero_rLayout (s : State) {f : BitVec 6} {op : AluOp}
    (hc : controlUnit f = ctlRow true false false false false op false false true) (rs rt rd : RegIx) (u : BitVec 11) :
    (stepRecord s (f ++ rs ++ rt ++ rd ++ u : BitVec (6 + 5 + 5 + 5 + 11))).zero =
      zeroFlag (aluOut op (s.readReg rs) (s.readReg rt)) := by
  obtain ⟨hfunc, hrs, hrt, -⟩ := fields_rLayout f rs rt rd u rfl
  rw [stepRecord_zero_of_row s ((congrArg controlUnit hfunc).trans hc), hrs, hrt]
  rfl

/-- Zero of an I-type word. -/
theorem stepRecord_zero_encodeI (s : State) {f : BitVec 6}
    {regDst jump branch memRead memToReg memWrite aluSrc regWrite : Bool} {op : AluOp}
    (hc : controlUnit f = ctlRow regDst jump branch memRead memToReg op memWrite aluSrc regWrite)
    (rt rs : RegIx) (imm : BitVec 16) :
    (stepRecord s (encodeI f rt rs imm)).zero =
      zeroFlag (aluOut op (s.readReg rs) (if aluSrc then signExtImm imm else s.readReg rt)) := by
  rw [stepRecord_zero_of_row s ((congrArg controlUnit (fieldFunc_encodeI f rs rt imm)).trans hc), fieldRs_encodeI,
    fieldRt_encodeI, fieldImm16_encodeI]

theorem zeroFlag_sub_eq_decide (a b : Word) : zeroFlag (a - b) = decide (a = b) := by
  rw [Bool.eq_iff_iff, zeroFlag_sub, decide_eq_true_iff]

/-! ## A step that writes one register and advances (40_datapath.md R130, R131) -/

/-- The register holds the value unless it is register 0 (10_state.md R21), and nothing else changes but what the
commit writes. -/
theorem writeReg_advance_spec (s : State) (d : RegIx) (v : Word) :
    (d ≠ 0#5 → (s.writeReg d v).advance.readReg d = v) ∧
    RegsKeptBut d s (s.writeReg d v).advance ∧ DmemKept s (s.writeReg d v).advance ∧
    Completed s (s.writeReg d v).advance (s.pc + 4#32) ∧ (s.writeReg d v).advance.seq ≠ .faulted := by
  have hcompleted : Completed s (s.writeReg d v).advance (s.pc + 4#32) := by
    rw [advance_writeReg]
    exact completed_writeReg_commit s d v _
  have hkept : RegsKeptBut d s (s.writeReg d v).advance := by
    rintro r (hother | rfl)
    · exact s.readReg_writeReg_other v hother
    · exact s.readReg_zero_writeReg d v
  have hdmem : DmemKept s (s.writeReg d v).advance := fun a => by
    rw [State.advance_dmem, State.writeReg_dmem]
  exact ⟨s.readReg_writeReg_same v, hkept, hdmem, hcompleted, hcompleted.seq_ne_faulted⟩

/-! ## ADD, SUB and ADDI (41_alu_ops.md R140 to R142) -/

/-- Settles O37: both operands of ADD's row are registers, and `writeReg_advance_spec` takes the sum. -/
theorem addInstruction : Obligations.AddInstruction := by
  intro rd rs rt s
  exact ⟨fun u => ⟨(unusedBitsIgnored.1 rs rt rd u).1, stepRecord_zero_rLayout s control_add rs rt rd u⟩,
    encodeOp_of_format_r rfl rd rs rt, control_add, _, rfl, writeReg_advance_spec s rd _⟩

/-- Settles O38: both operands of SUB's row are registers, a difference is zero when they are equal, and
`writeReg_advance_spec` takes the difference. -/
theorem subInstruction : Obligations.SubInstruction := by
  intro rd rs rt s
  have hzero (u : BitVec 11) := (stepRecord_zero_rLayout s control_sub rs rt rd u).trans (zeroFlag_sub_eq_decide _ _)
  exact ⟨fun u => ⟨(unusedBitsIgnored.1 rs rt rd u).2, hzero u⟩,
    encodeOp_of_format_r rfl rd rs rt, control_sub, _, rfl, writeReg_advance_spec s rd _⟩

/-- Settles O39: the second operand of ADDI's row is the sign-extended immediate, and `writeReg_advance_spec` takes the
sum. -/
theorem addiInstruction : Obligations.AddiInstruction := by
  intro rt rs imm s
  have hdecode := decode_of_funcAddi (fieldFunc_encodeI funcAddi rs rt imm)
  rw [fieldRt_encodeI, fieldRs_encodeI, fieldImm16_encodeI] at hdecode
  have hencode := encodeOp_of_format_i (m := .addi) rfl rt rs imm.toInt
  rw [BitVec.ofInt_toInt] at hencode
  exact ⟨hdecode, stepRecord_zero_encodeI s control_addi rt rs imm, hencode, control_addi, _, rfl,
    writeReg_advance_spec s rt _⟩

end Sys2Proof.Machine
end

section
/-! SUPPORT. The decoder and the codec on the I-type words of LW and SW, what a step that stores one word and advances
leaves, and the claims about LW and SW that follow (42_load_store.md). -/

namespace Sys2Proof.Machine

/-! ## The words of LW and SW (30_encoding.md R82, R103) -/

theorem decode_encodeI_lw (rt rs : RegIx) (imm : BitVec 16) :
    decode (encodeI funcLw rt rs imm) = .ok (.lw rt rs imm) := by
  rw [decode_of_funcLw (fieldFunc_encodeI funcLw rs rt imm), fieldRt_encodeI, fieldRs_encodeI, fieldImm16_encodeI]

theorem decode_encodeI_sw (rt rs : RegIx) (imm : BitVec 16) :
    decode (encodeI funcSw rt rs imm) = .ok (.sw rt rs imm) := by
  rw [decode_of_funcSw (fieldFunc_encodeI funcSw rs rt imm), fieldRt_encodeI, fieldRs_encodeI, fieldImm16_encodeI]

/-- The codec takes an immediate field from its signed reading (R85, R105). -/
theorem encodeOp_toInt_of_format_i {m : Mnemonic} (hm : m.format = .i) (rt rs : RegIx) (imm : BitVec 16) :
    encodeOp ⟨m, [regInt rt, regInt rs, imm.toInt]⟩ = .ok (encodeI m.func rt rs imm) := by
  rw [encodeOp_of_format_i hm, BitVec.ofInt_toInt]

/-! ## A step that stores one word and advances (20_memory.md R57, R60) -/

/-- The four bytes at `a` hold the word, big-endian, and nothing else changes but what the commit writes. -/
theorem storeWord_advance_spec {s t : State} (hwf : s.dmem.wf = true) (a : Nat) (v : Word)
    (ht : t = ({ s with dmem := s.dmem.writeWord a v } : State).advance) :
    t.dmem.read a = v.extractLsb' 24 8 ∧ t.dmem.read (a + 1) = v.extractLsb' 16 8 ∧
    t.dmem.read (a + 2) = v.extractLsb' 8 8 ∧ t.dmem.read (a + 3) = v.extractLsb' 0 8 ∧
    DmemKeptOutside a s t ∧ RegsKept s t ∧ Completed s t (s.pc + 4#32) ∧ t.seq ≠ .faulted := by
  subst ht
  have inside {k : Nat} (hk : k < 4) := Memory.read_writeWord_inside hwf a v hk
  have hcompleted := completed_dmem_commit s (s.dmem.writeWord a v) (s.pc + 4#32)
  exact ⟨inside (k := 0) (by decide), inside (k := 1) (by decide), inside (k := 2) (by decide),
    inside (k := 3) (by decide), fun _ => s.dmem.read_writeWord_outside a v, fun _ => rfl, hcompleted,
    hcompleted.seq_ne_faulted⟩

/-! ## LW and SW (42_load_store.md R150, R151) -/

/-- Settles O40: the check of the address decides between the fault it names and the load, and
`writeReg_advance_spec` takes the word read. -/
theorem lwInstruction : Obligations.LwInstruction := by
  intro rt rs imm s
  refine ⟨decode_encodeI_lw rt rs imm, stepRecord_zero_encodeI s control_lw rt rs imm,
    encodeOp_toInt_of_format_i (m := .lw) rfl rt rs imm, control_lw, fun h hr => ?_, fun h => ?_, fun h hr => ?_⟩
  · refine ⟨_, exec_lw_of_no_fault (accessFault_of_inside .load h hr), ?_⟩
    obtain ⟨hreg, hframe⟩ := writeReg_advance_spec s rt (s.dmem.readWord (s.effectiveAddr rs imm).toNat)
    exact ⟨fun h0 => (congrArg BitVec.toNat (hreg h0)).trans (s.dmem.readWord_toNat _), hframe⟩
  · exact ⟨_, exec_lw_of_fault (accessFault_of_misaligned .load _ h), faultTaken_enterFault s _ _ _⟩
  · exact ⟨_, exec_lw_of_fault (accessFault_of_outOfRange .load h hr), faultTaken_enterFault s _ _ _⟩

/-- Settles O41: the check of the address decides between the fault it names and the store, and
`storeWord_advance_spec` takes the word of `x[rt]`. -/
theorem swInstruction : Obligations.SwInstruction := by
  intro rt rs imm s hwf
  refine ⟨decode_encodeI_sw rt rs imm, stepRecord_zero_encodeI s control_sw rt rs imm,
    encodeOp_toInt_of_format_i (m := .sw) rfl rt rs imm, control_sw, fun h hr => ?_, fun h => ?_, fun h hr => ?_⟩
  · exact ⟨_, exec_sw_of_no_fault (accessFault_of_inside .store h hr), storeWord_advance_spec hwf _ _ rfl⟩
  · exact ⟨_, exec_sw_of_fault (accessFault_of_misaligned .store _ h), faultTaken_enterFault s _ _ _⟩
  · exact ⟨_, exec_sw_of_fault (accessFault_of_outOfRange .store h hr), faultTaken_enterFault s _ _ _⟩

end Sys2Proof.Machine
end

section
/-! SUPPORT. The decoder and the codec on the words of BEQ and J, what a step that only commits leaves, and the claims
about BEQ and J that follow (43_control_transfer.md). -/

namespace Sys2Proof.Machine

/-! ## The words of BEQ and J (30_encoding.md R82, R83, R103) -/

theorem decode_encodeI_beq (rt rs : RegIx) (imm : BitVec 16) :
    decode (encodeI funcBeq rt rs imm) = .ok (.beq rt rs imm) := by
  rw [decode_of_funcBeq (fieldFunc_encodeI funcBeq rs rt imm), fieldRt_encodeI, fieldRs_encodeI, fieldImm16_encodeI]

theorem decode_encodeJ_j (imm : BitVec 26) : decode (encodeJ funcJ imm) = .ok (.j imm) := by
  rw [decode_of_funcJ (fieldFunc_encodeJ funcJ imm), fieldJimm26_encodeJ]

/-- The codec takes the jump field from its signed reading (R86, R105). -/
theorem encodeOp_j_toInt (imm : BitVec 26) : encodeOp ⟨.j, [imm.toInt]⟩ = .ok (encodeJ funcJ imm) := by
  rw [encodeOp_j, BitVec.ofInt_toInt]

/-! ## A step that only commits (40_datapath.md R129, R131) -/

/-- No register and no byte of data memory changes, whatever the pc committed, and the step is no fault. -/
theorem commit_spec (s : State) (p : Word) :
    RegsKept s (s.commit p) ∧ DmemKept s (s.commit p) ∧ Completed s (s.commit p) p ∧ (s.commit p).seq ≠ .faulted := by
  have hdmem : DmemKept s (s.commit p) := fun a => by rw [State.commit_dmem]
  exact ⟨fun r => s.readReg_commit p r, hdmem, completed_commit s p, (completed_commit s p).seq_ne_faulted⟩

section

variable {rt rs : RegIx} {s : State}

/-- A taken BEQ commits the branch target. -/
theorem exec_beq_of_eq (h : s.readReg rs = s.readReg rt) (imm : BitVec 16) :
    exec (.beq rt rs imm) s = .next (s.commit (branchTargetOf (pcPlusFour s.pc) (signExtImm imm))) := by
  have hzero : zeroFlag (aluOut .sub (s.readReg rs) (s.readReg rt)) = true := (zeroFlag_sub _ _).2 h
  rw [exec_beq, if_pos hzero]

/-- A BEQ that is not taken commits pc + 4. -/
theorem exec_beq_of_ne (h : s.readReg rs ≠ s.readReg rt) (imm : BitVec 16) :
    exec (.beq rt rs imm) s = .next (s.commit (pcPlusFour s.pc)) := by
  have hzero : ¬ zeroFlag (aluOut .sub (s.readReg rs) (s.readReg rt)) = true := fun hz => h ((zeroFlag_sub _ _).1 hz)
  rw [exec_beq, if_neg hzero]

end

/-! ## BEQ and J (43_control_transfer.md R160, R161) -/

/-- Settles O42: a difference is zero when its operands are equal, so Zero and the committed pc both follow the
comparison of the registers, and `commit_spec` takes either pc. -/
theorem beqInstruction : Obligations.BeqInstruction := by
  intro rt rs imm s
  refine ⟨decode_encodeI_beq rt rs imm, (stepRecord_zero_encodeI s control_beq rt rs imm).trans
    (zeroFlag_sub_eq_decide _ _), encodeOp_toInt_of_format_i (m := .beq) rfl rt rs imm, control_beq, ?_⟩
  by_cases h : s.readReg rs = s.readReg rt
  · obtain ⟨hregs, hdmem, hcompleted, hseq⟩ := commit_spec s (branchTargetOf (pcPlusFour s.pc) (signExtImm imm))
    exact ⟨_, exec_beq_of_eq h imm, hregs, hdmem, hseq, fun _ => hcompleted, fun hne => absurd h hne⟩
  · obtain ⟨hregs, hdmem, hcompleted, hseq⟩ := commit_spec s (pcPlusFour s.pc)
    exact ⟨_, exec_beq_of_ne h imm, hregs, hdmem, hseq, fun heq => absurd heq h, fun _ => hcompleted⟩

/-- Settles O43: J only commits, and `commit_spec` takes the jump target. -/
theorem jInstruction : Obligations.JInstruction := by
  intro imm s
  exact ⟨decode_encodeJ_j imm, encodeOp_j_toInt imm, control_j, _, rfl,
    commit_spec s (jumpTargetOf (pcPlusFour s.pc) imm)⟩

end Sys2Proof.Machine
end

section
/-! SUPPORT. The fields and the ALU's result of a word with LWR's func, the decoder's rejection of a func in no row,
and the claims about the no-ops that follow (44_reserved_noop.md). -/

namespace Sys2Proof

/-! ## The register fields of a word given by its low 26 bits (30_encoding.md R83, R84) -/

theorem fieldRs_encodeJ (f : BitVec 6) (x : BitVec 26) : fieldRs (encodeJ f x) = x.extractLsb' 21 5 :=
  BitVec.extractLsb'_append_eq_of_add_le (by decide)

theorem fieldRt_encodeJ (f : BitVec 6) (x : BitVec 26) : fieldRt (encodeJ f x) = x.extractLsb' 16 5 :=
  BitVec.extractLsb'_append_eq_of_add_le (by decide)

/-! ## The decoder on LWR's func and on a func in no row (R88, R89) -/

theorem decode_of_funcLwr {w : Word} (h : fieldFunc w = funcLwr) : decode w = .ok .lwr := by
  simp only [decode, h]; rfl

/-- A decoded word has the func of its instruction. -/
theorem fieldFunc_of_decode {w : Word} {i : Instr} (h : decode w = .ok i) : fieldFunc w = i.func := by
  rcases decode_cases h with ⟨hf, rfl⟩ | ⟨hf, rfl⟩ | ⟨hf, rfl⟩ | ⟨hf, rfl⟩ | ⟨hf, rfl⟩ | ⟨hf, rfl⟩ | ⟨hf, rfl⟩ |
    ⟨hf, rfl⟩ <;> exact hf

/-- The decoder rejects a word with the func of no instruction. -/
theorem exists_decode_eq_error {w : Word} (h : ∀ i : Instr, fieldFunc w ≠ i.func) : ∃ e, decode w = .error e := by
  cases hd : decode w with
  | ok i => exact absurd (fieldFunc_of_decode hd) (h i)
  | error e => exact ⟨e, rfl⟩

namespace Machine

/-! ## The ALU's result of a step's record (40_datapath.md R126) -/

/-- MEMORY and WRITEBACK leave the ALU's result as EXECUTE computes it, whatever the data access answers. -/
theorem stepRecord_aluResult (s : State) (ir : Word) :
    (stepRecord s ir).aluResult = (executeRecord s ir).aluResult := by
  cases h : dataAccess (executeRecord s ir) s with
  | error c => rw [stepRecord_of_access_error h]
  | ok a => rw [stepRecord_of_access_ok (d := a.1) (t := a.2) h]; rfl

/-- The inert row adds the registers its word's fields name (30_encoding.md R91). -/
theorem stepRecord_aluResult_of_inert (s : State) {ir : Word} (hc : controlUnit (fieldFunc ir) = ctlInert) :
    (stepRecord s ir).aluResult = s.readReg (fieldRs ir) + s.readReg (fieldRt ir) := by
  rw [stepRecord_aluResult, executeRecord_aluResult, hc]
  rfl

/-- A step that fetches a word the decoder rejects only advances (44_reserved_noop.md R171). -/
theorem step_of_reject {s : State} {w : Word} {e : DecodeRefusal} (hs : s.seq = .fetch)
    (hw : s.imemRead s.pc = .ok w) (hd : decode w = .error e) :
    step s = .next ({ s with scratch := stepRecord s w } : State).advance := by
  simp only [step_of_fetch hs, stepInstr, hw, runWord_of_reject hd]

/-! ## LWR and a func in no row (44_reserved_noop.md R170, R171) -/

/-- Settles O44: func alone selects LWR and the inert row, func 2 is of no mnemonic, and LWR's meaning is the commit of
pc + 4, which `commit_spec` takes. -/
theorem lwrInstruction : Obligations.LwrInstruction := by
  intro x s
  have hfunc : fieldFunc (encodeJ funcLwr x) = funcLwr := fieldFunc_encodeJ funcLwr x
  have hctl : controlUnit (fieldFunc (encodeJ funcLwr x)) = ctlInert := (congrArg controlUnit hfunc).trans control_lwr
  have hcodec : decodeOp (encodeJ funcLwr x) = .unknown (fieldFunc (encodeJ funcLwr x)) :=
    decodeOp_of_no_mnemonic fun m => by rw [hfunc]; cases m <;> decide
  have halu := stepRecord_aluResult_of_inert s hctl
  rw [fieldRs_encodeJ, fieldRt_encodeJ] at halu
  exact ⟨decode_of_funcLwr hfunc, hcodec.trans (congrArg Verdict.unknown hfunc),
    lookupMnemonic_eq_none.2 (by decide), control_lwr, halu, _, rfl, commit_spec s (pcPlusFour s.pc)⟩

/-- Settles O45: the decoder rejects the word, the control unit has the inert row for it, and the step commits pc + 4
on a state that differs from `s` in the per-step record alone. -/
theorem unrecognizedFuncStep : Obligations.UnrecognizedFuncStep := by
  intro s w hs hw hrow
  obtain ⟨e, hd⟩ := exists_decode_eq_error fun i hi => hrow (by
    rw [hi]
    cases i <;> simp [Instr.func, funcAdd, funcSub, funcLwr, funcAddi, funcLw, funcSw, funcBeq, funcJ])
  obtain ⟨hregs, hdmem, ⟨hpc, hicount, hseq, hconfig, himem, hfault, -⟩, hne⟩ :=
    commit_spec { s with scratch := stepRecord s w } (pcPlusFour s.pc)
  exact ⟨control_of_reject hd, _, step_of_reject hs hw hd, hregs, hdmem, himem, hconfig, hfault, hpc, hicount, hseq,
    hne⟩

end Machine

end Sys2Proof
end

section
/-! SUPPORT. The causes of a fault as 60_exceptions.md R181 lists them, that a step from FETCH ends in FAULTED with
exactly the record of its cause, and the claims about faults and stop states that follow. -/

namespace Sys2Proof.Machine

/-! ## The check of an access by its code (20_memory.md R54 to R56) -/

/-- Each code of a check with its condition. -/
theorem accessFault_eq_some_iff {k : Access} {size : Nat} {a : Word} {c : FaultCode} :
    accessFault k size a = some c ↔
      (a.toNat % 4 ≠ 0 ∧ c = misalignedCode k) ∨
      (a.toNat % 4 = 0 ∧ a.toNat + 4 > size ∧ c = outOfRangeCode k) := by
  by_cases ha : a.toNat % 4 = 0
  · by_cases hr : a.toNat + 4 ≤ size
    · simp [accessFault_of_inside k ha hr, ha, Nat.not_lt.2 hr]
    · simp [accessFault_of_outOfRange k ha (Nat.lt_of_not_le hr), ha, Nat.lt_of_not_le hr, eq_comm]
  · simp [accessFault_of_misaligned k size ha, ha, eq_comm]

theorem accessFault_eq_misaligned_iff (k : Access) {size : Nat} {a : Word} :
    accessFault k size a = some (misalignedCode k) ↔ a.toNat % 4 ≠ 0 := by
  have hne : misalignedCode k ≠ outOfRangeCode k := by cases k <;> decide
  simp [accessFault_eq_some_iff, hne]

theorem accessFault_eq_outOfRange_iff (k : Access) {size : Nat} {a : Word} :
    accessFault k size a = some (outOfRangeCode k) ↔ a.toNat % 4 = 0 ∧ a.toNat + 4 > size := by
  have hne : outOfRangeCode k ≠ misalignedCode k := by cases k <;> decide
  simp [accessFault_eq_some_iff, hne]

/-- `AccessFaults` with the codes of one kind of access is that access's check. -/
theorem accessFaults_iff {s : State} (k : Access) {a : Word} {c : FaultCode} :
    AccessFaults s a (misalignedCode k) (outOfRangeCode k) c ↔ accessFault k s.config.dmemBytes a = some c := by
  rw [accessFault_eq_some_iff, AccessFaults, ← Bool.not_eq_true, ← Bool.not_eq_true, wordAligned_iff, inRange_iff,
    Nat.not_le]

/-- The access whose check answers a code. -/
def FaultCode.access : FaultCode → Option Access
  | .none => Option.none
  | .fetchMisaligned | .fetchOutOfRange => some .fetch
  | .loadMisaligned | .loadOutOfRange => some .load
  | .storeMisaligned | .storeOutOfRange => some .store

theorem access_of_accessFault {k : Access} {size : Nat} {a : Word} {c : FaultCode}
    (h : accessFault k size a = some c) : c.access = some k := by
  rcases accessFault_eq_some_iff.1 h with ⟨-, rfl⟩ | ⟨-, -, rfl⟩ <;> cases k <;> rfl

/-! ## What makes a step fault (60_exceptions.md R181, R182) -/

/-- The func whose word makes a data access: LW loads, SW stores (42_load_store.md R150, R151). -/
def Access.dataFunc : Access → Option (BitVec 6)
  | .fetch => none
  | .load => some funcLw
  | .store => some funcSw

/-- What makes a step from `s` fault, with its code, `fault_addr` and `fault_ir`: the check of the fetch at pc, or of
the data access of the fetched word. -/
inductive FaultCause (s : State) : FaultCode → Word → Word → Prop
  | fetch {c : FaultCode} (h : accessFault .fetch s.config.imemBytes s.pc = some c) : FaultCause s c s.pc 0#32
  | data {k : Access} {c : FaultCode} {w : Word} (hw : s.imemRead s.pc = .ok w) (hk : k.dataFunc = some (fieldFunc w))
      (h : accessFault k s.config.dmemBytes (s.effectiveAddr (fieldRs w) (fieldImm16 w)) = some c) :
      FaultCause s c (s.effectiveAddr (fieldRs w) (fieldImm16 w)) w

section

variable {s : State} {c : FaultCode} {a ir : Word}

/-- Code NONE is of no cause. -/
theorem FaultCause.code_ne_none (h : FaultCause s c a ir) : c ≠ .none := by
  rintro rfl
  cases h with
  | fetch h | data _ _ h => cases access_of_accessFault h

/-- The record of a fetch fault (R182). -/
theorem FaultCause.of_fetch_code (h : FaultCause s c a ir) (hc : c.access = some .fetch) : a = s.pc ∧ ir = 0#32 := by
  cases h with
  | fetch => exact ⟨rfl, rfl⟩
  | data _ hk h =>
    cases hc.symm.trans (access_of_accessFault h)
    cases hk

/-- The record of a data fault (R182). -/
theorem FaultCause.of_data_code (h : FaultCause s c a ir) (hc : c.access ≠ some .fetch) :
    s.imemRead s.pc = .ok ir ∧ a = s.effectiveAddr (fieldRs ir) (fieldImm16 ir) := by
  cases h with
  | fetch h => exact absurd (access_of_accessFault h) hc
  | data hw _ _ => exact ⟨hw, rfl⟩

/-- A fetch code has a cause when the check of pc answers it. -/
theorem exists_faultCause_fetch_iff (hc : c.access = some .fetch) :
    (∃ a ir, FaultCause s c a ir) ↔ accessFault .fetch s.config.imemBytes s.pc = some c := by
  constructor
  · rintro ⟨_, _, h | ⟨_, hk, h⟩⟩
    · exact h
    · cases hc.symm.trans (access_of_accessFault h)
      cases hk
  · exact fun h => ⟨_, _, .fetch h⟩

/-- A data code has a cause when a word with its access's func is fetched and the check of its address answers it. -/
theorem exists_faultCause_data_iff {k : Access} {f : BitVec 6} (hk : k.dataFunc = some f) (hc : c.access = some k) :
    (∃ a ir, FaultCause s c a ir) ↔ ∃ w, (s.imemRead s.pc = .ok w ∧ fieldFunc w = f) ∧
      accessFault k s.config.dmemBytes (s.effectiveAddr (fieldRs w) (fieldImm16 w)) = some c := by
  constructor
  · rintro ⟨_, w, h | ⟨hw, hk', h⟩⟩
    · cases hc.symm.trans (access_of_accessFault h)
      cases hk
    · cases hc.symm.trans (access_of_accessFault h)
      exact ⟨w, ⟨hw, Option.some.inj (hk'.symm.trans hk)⟩, h⟩
  · rintro ⟨w, ⟨hw, rfl⟩, h⟩
    exact ⟨_, w, .data hw hk h⟩

/-! ## A step from FETCH and its cause (R182, R183) -/

/-- The record of a step holds the fetched word (10_state.md R34). -/
theorem stepRecord_ir (s : State) (w : Word) : (stepRecord s w).ir = w := by
  cases h : dataAccess (executeRecord s w) s with
  | error c => rw [stepRecord_of_access_error h]; rfl
  | ok a => rw [stepRecord_of_access_ok (d := a.1) (t := a.2) h]; rfl

/-- A step from FETCH that fetches a word the decoder takes runs its instruction. -/
theorem step_of_decode {w : Word} {i : Instr} (hs : s.seq = .fetch) (hw : s.imemRead s.pc = .ok w)
    (hd : decode w = .ok i) : step s = exec i { s with scratch := stepRecord s w } := by
  simp only [step_of_fetch hs, stepInstr, hw, runWord_of_decode hd]

/-- A step with a cause takes that fault and writes nothing else but its own record. -/
theorem FaultCause.step_eq (h : FaultCause s c a ir) (hs : s.seq = .fetch) :
    ∃ r, step s = .next (({ s with scratch := r } : State).enterFault c a ir) := by
  cases h with
  | fetch h => exact ⟨Scratch.start s.pc, by simp only [step_of_fetch hs, stepInstr, State.imemRead_eq_error.2 h]⟩
  | @data k _ _ hw hk h =>
    refine ⟨stepRecord s ir, ?_⟩
    cases k with
    | fetch => cases hk
    | load =>
      rw [step_of_decode hs hw (decode_of_funcLw (Option.some.inj hk).symm),
        exec_lw_of_fault (s := { s with scratch := stepRecord s ir }) h, stepRecord_ir]
      rfl
    | store =>
      rw [step_of_decode hs hw (decode_of_funcSw (Option.some.inj hk).symm),
        exec_sw_of_fault (s := { s with scratch := stepRecord s ir }) h, stepRecord_ir]
      rfl

/-- An instruction answers a state that is not FAULTED, or is an LW or SW whose address fails its check. -/
theorem exec_next_cases (i : Instr) (s : State) :
    ∃ t, exec i s = .next t ∧ (t.seq ≠ .faulted ∨ ∃ rt rs imm c,
      (i = .lw rt rs imm ∧ accessFault .load s.config.dmemBytes (s.effectiveAddr rs imm) = some c) ∨
      (i = .sw rt rs imm ∧ accessFault .store s.config.dmemBytes (s.effectiveAddr rs imm) = some c)) := by
  rcases exec_cases i s with ⟨d, v, -, e⟩ | ⟨p, e, -⟩ | ⟨rt, rs, imm, -, -, -, e⟩ | ⟨rt, rs, imm, c, hc, e⟩
  · exact ⟨_, e, .inl (completed_writeReg_commit s d v _).seq_ne_faulted⟩
  · exact ⟨_, e, .inl (completed_commit s p).seq_ne_faulted⟩
  · exact ⟨_, e, .inl (completed_dmem_commit s _ _).seq_ne_faulted⟩
  · exact ⟨_, e, .inr ⟨rt, rs, imm, c,
      hc.imp (.imp_right (accessFaults_iff .load).1) (.imp_right (accessFaults_iff .store).1)⟩⟩

/-- A step from FETCH answers a state, which is not FAULTED unless the step has a cause. -/
theorem step_next_cases (hs : s.seq = .fetch) :
    ∃ t, step s = .next t ∧ (t.seq ≠ .faulted ∨ ∃ c a ir, FaultCause s c a ir) := by
  rcases step_fetch_cases hs with ⟨c, hf, e⟩ | ⟨w, i, hw, hd, e⟩ | ⟨w, _, -, -, e⟩
  · exact ⟨_, e, .inr ⟨c, _, _, .fetch (State.imemRead_eq_error.1 hf)⟩⟩
  · obtain ⟨t, ht, hcases⟩ := exec_next_cases i { s with scratch := stepRecord s w }
    refine ⟨t, e.trans ht, hcases.imp_right ?_⟩
    rintro ⟨rt, rs, imm, c, ⟨rfl, hc⟩ | ⟨rfl, hc⟩⟩
    · obtain ⟨hf, -, rfl, rfl⟩ : fieldFunc w = funcLw ∧ rt = fieldRt w ∧ rs = fieldRs w ∧ imm = fieldImm16 w := by
        simpa using decode_cases hd
      exact ⟨c, _, w, .data (k := .load) hw (congrArg some hf.symm) hc⟩
    · obtain ⟨hf, -, rfl, rfl⟩ : fieldFunc w = funcSw ∧ rt = fieldRt w ∧ rs = fieldRs w ∧ imm = fieldImm16 w := by
        simpa using decode_cases hd
      exact ⟨c, _, w, .data (k := .store) hw (congrArg some hf.symm) hc⟩
  · exact ⟨_, e, .inl (completed_commit _ _).seq_ne_faulted⟩

/-- A step from FETCH ends in FAULTED with a record exactly when that is the record of its cause. -/
theorem faulted_iff_faultCause {t : State} (hs : s.seq = .fetch) (h : step s = .next t) (f : FaultRecord) :
    t.seq = .faulted ∧ t.fault = f ↔ f.pc = s.pc ∧ FaultCause s f.code f.addr f.ir := by
  have fault_of_cause {c a ir} (hc : FaultCause s c a ir) : t.seq = .faulted ∧ t.fault = ⟨c, s.pc, a, ir⟩ := by
    obtain ⟨r, e⟩ := hc.step_eq hs
    obtain rfl := Host.Outcome.next.inj (e.symm.trans h)
    exact ⟨rfl, rfl⟩
  constructor
  · rintro ⟨hseq, rfl⟩
    obtain ⟨t', ht', hne | ⟨c, a, ir, hc⟩⟩ := step_next_cases hs <;>
      obtain rfl := Host.Outcome.next.inj (ht'.symm.trans h)
    · exact absurd hseq hne
    · rw [(fault_of_cause hc).2]
      exact ⟨rfl, hc⟩
  · rintro ⟨hpc, hc⟩
    obtain ⟨hseq, hfault⟩ := fault_of_cause hc
    exact ⟨hseq, by rw [hfault, ← hpc]⟩

/-- A step from FETCH ends in FAULTED with a code exactly when it has a cause with that code. -/
theorem faulted_code_iff {t : State} (hs : s.seq = .fetch) (h : step s = .next t) (c : FaultCode) :
    t.seq = .faulted ∧ t.fault.code = c ↔ ∃ a ir, FaultCause s c a ir := by
  constructor
  · rintro ⟨hseq, rfl⟩
    exact ⟨_, _, ((faulted_iff_faultCause hs h t.fault).1 ⟨hseq, rfl⟩).2⟩
  · rintro ⟨a, ir, hc⟩
    obtain ⟨hseq, hfault⟩ := (faulted_iff_faultCause hs h ⟨c, s.pc, a, ir⟩).2 ⟨rfl, hc⟩
    exact ⟨hseq, by rw [hfault]⟩

end

/-! ## Faults and stop states (R181 to R183, R186) -/

theorem Seq.not_midStep_of_stopped {q : Seq} (h : q.stopped = true) : q.midStep = false := by
  cases q <;> simp_all [Seq.stopped, Seq.midStep]

/-- Settles O47: the record is that of the step's cause, and the code tells a fetch from a data access. -/
theorem faultRecordContents : Obligations.FaultRecordContents := by
  intro s t hs h hf
  obtain ⟨hpc, hc⟩ := (faulted_iff_faultCause hs h t.fault).1 ⟨hf, rfl⟩
  refine ⟨hpc, fun hcode => hc.of_fetch_code ?_, fun hcode => hc.of_data_code ?_⟩
  · rcases hcode with e | e <;> rw [e] <;> rfl
  · rcases hcode with e | e | e | e <;> rw [e] <;> decide

/-- Settles O46: the code is that of the step's cause, and each condition is that of the access's check; the addresses
are those of the fault record. -/
theorem faultCodesExactly : Obligations.FaultCodesExactly := by
  refine ⟨fun s hs => ?_, rfl⟩
  obtain ⟨t, ht, -⟩ := step_next_cases hs
  have hcode := faulted_code_iff hs ht
  have hfetch {c} (hc : c.access = some .fetch) := (hcode c).trans (exists_faultCause_fetch_iff hc)
  have hdata {k f c} (hk : Access.dataFunc k = some f) (hc : c.access = some k) :=
    (hcode c).trans (exists_faultCause_data_iff hk hc)
  refine ⟨t, ht, ?_, ?_, ?_, ?_, ?_, ?_, ?_, ?_, ?_⟩
  · exact (hfetch rfl).trans (accessFault_eq_misaligned_iff .fetch)
  · exact (hfetch rfl).trans (accessFault_eq_outOfRange_iff .fetch)
  · exact (hdata rfl rfl).trans (exists_congr fun _ => and_congr_right' (accessFault_eq_misaligned_iff .load))
  · exact (hdata rfl rfl).trans (exists_congr fun _ => and_congr_right' (accessFault_eq_outOfRange_iff .load))
  · exact (hdata rfl rfl).trans (exists_congr fun _ => and_congr_right' (accessFault_eq_misaligned_iff .store))
  · exact (hdata rfl rfl).trans (exists_congr fun _ => and_congr_right' (accessFault_eq_outOfRange_iff .store))
  · intro hnone
    obtain ⟨_, _, hc⟩ := (hcode .none).1 hnone
    exact hc.code_ne_none rfl
  · simp only [← and_or_left]
    rintro ⟨hf, hc⟩
    obtain ⟨-, haddr, -⟩ := faultRecordContents s t hs ht hf
    exact (haddr hc).1
  · simp only [← and_or_left]
    rintro ⟨hf, hc⟩
    obtain ⟨-, -, haddr⟩ := faultRecordContents s t hs ht hf
    exact ⟨_, haddr hc⟩

/-- Settles O48: a step that ends in FAULTED did not complete, and a fault taken leaves the architectural state. -/
theorem faultsArePrecise : Obligations.FaultsArePrecise := by
  intro s t hs h hf
  rcases step_completes_or_faults hs h with
    ⟨_, _, -, -, hcompleted⟩ | ⟨_, _, _, _, ⟨-, -, hpc, hregs, hdmem, hicount, hconfig, himem, -⟩, -⟩
  · exact absurd hf hcompleted.seq_ne_faulted
  · exact ⟨hpc, hregs, hdmem, hicount, himem, hconfig⟩

/-- Settles O49: only FETCH and the sub-stage states make a step, and release asks for RESET and a legal setup. -/
theorem stopStatesAreTerminal : Obligations.StopStatesAreTerminal := by
  refine ⟨fun s hstop t h => ?_, fun s => ⟨rfl, fun p hp => ⟨State.released p, if_pos ⟨rfl, hp⟩, rfl⟩⟩,
    fun s p t h => ?_⟩
  · have hm : s.seq.midStep = false := by
      rcases hstop with hstop | hreset
      · exact Seq.not_midStep_of_stopped hstop
      · rw [hreset]; rfl
    rw [seq_fetch_of_step_next hm h] at hstop
    simp [Seq.stopped] at hstop
  · by_contra hne
    simp [State.releaseReset, hne] at h

end Sys2Proof.Machine
end

section
/-! SUPPORT. The decoder on the encoder's words, and the claims about encoding and decoding that follow
(30_encoding.md). -/

namespace Sys2Proof

theorem decode_encodeI_addi (rt rs : RegIx) (imm : BitVec 16) :
    decode (encodeI funcAddi rt rs imm) = .ok (.addi rt rs imm) := by
  rw [decode_of_funcAddi (fieldFunc_encodeI funcAddi rs rt imm), fieldRt_encodeI, fieldRs_encodeI, fieldImm16_encodeI]

/-- Settles O1: each instruction by its layout; an R-type word of the encoder is one with its unused bits 0. -/
theorem decodeEncodeRoundTrip : Obligations.DecodeEncodeRoundTrip := by
  intro i
  cases i with
  | add rd rs rt => exact (unusedBitsIgnored.1 rs rt rd 0#11).1
  | sub rd rs rt => exact (unusedBitsIgnored.1 rs rt rd 0#11).2
  | lwr => exact decode_of_funcLwr (fieldFunc_encodeJ funcLwr 0#26)
  | addi rt rs imm => exact decode_encodeI_addi rt rs imm
  | lw rt rs imm => exact Machine.decode_encodeI_lw rt rs imm
  | sw rt rs imm => exact Machine.decode_encodeI_sw rt rs imm
  | beq rt rs imm => exact Machine.decode_encodeI_beq rt rs imm
  | j imm => exact Machine.decode_encodeJ_j imm

/-- Settles O2: `encode_of_decode`, with the used bits of each layout. -/
theorem encodeDecodeClearsUnusedBits : Obligations.EncodeDecodeClearsUnusedBits := by
  intro w i h
  rw [encode_of_decode h]
  cases i with
  | add | sub | lwr => rfl
  | addi | lw | sw | beq | j => exact BitVec.and_allOnes

/-- The decoder's only rejection of a word names its func (log 10). -/
theorem decode_error {w : Word} {e : DecodeRefusal} (h : decode w = .error e) :
    e = .unrecognizedFunc (fieldFunc w) := by
  simp only [decode] at h
  repeat' split at h
  all_goals cases h
  rfl

/-- The func values of the table are those of the eight instructions (R89). -/
theorem Instr.func_mem (i : Instr) :
    i.func ∈ [funcAdd, funcSub, funcLwr, funcAddi, funcLw, funcSw, funcBeq, funcJ] := by
  cases i <;> simp [Instr.func]

/-- Settles O4: the decoder's answer for each known func, and the name of its rejection for every other. -/
theorem funcSelectsInstruction : Obligations.FuncSelectsInstruction := by
  intro w known
  refine ⟨fun hknown => ?_, fun hunknown => ?_⟩
  · simp only [known, List.mem_cons, List.not_mem_nil, or_false] at hknown
    rcases hknown with h | h | h | h | h | h | h | h
    · exact ⟨_, decode_of_funcAdd h, h.symm⟩
    · exact ⟨_, decode_of_funcSub h, h.symm⟩
    · exact ⟨_, decode_of_funcLwr h, h.symm⟩
    · exact ⟨_, decode_of_funcAddi h, h.symm⟩
    · exact ⟨_, decode_of_funcLw h, h.symm⟩
    · exact ⟨_, decode_of_funcSw h, h.symm⟩
    · exact ⟨_, decode_of_funcBeq h, h.symm⟩
    · exact ⟨_, decode_of_funcJ h, h.symm⟩
  · have hfunc (i : Instr) : fieldFunc w ≠ i.func := fun hi => hunknown (hi ▸ i.func_mem)
    obtain ⟨e, hd⟩ := exists_decode_eq_error hfunc
    rw [hd, decode_error hd]

/-- Settles O6: each example word is the encoder's word of its instruction. -/
theorem exampleWordsDecode : Obligations.ExampleWordsDecode :=
  ⟨decodeEncodeRoundTrip (.add 3 1 2), decodeEncodeRoundTrip (.sub 4 1 2), decodeEncodeRoundTrip (.addi 2 0 0xFFF9),
    decodeEncodeRoundTrip (.lw 4 1 0), decodeEncodeRoundTrip (.sw 3 2 0), decodeEncodeRoundTrip (.beq 1 2 4),
    decodeEncodeRoundTrip (.j 64)⟩

end Sys2Proof
end

section
/-! SUPPORT. What an instruction and a step can do to data memory, what the sequencer's state says of the rest of the
state, and the claims about the invariant of a run that follow. -/

namespace Sys2Proof.Machine

/-! ## Data memory (20_memory.md R60) -/

/-- Data memory as it was, or with one word stored inside the capacity. -/
def DmemKeptOrStored (s t : State) : Prop :=
  t.dmem = s.dmem ∨
    ∃ (a v : Word), inRange s.config.dmemBytes a = true ∧ t.dmem = s.dmem.writeWord a.toNat v

theorem exec_dmemKeptOrStored {i : Instr} {s t : State} (h : exec i s = .next t) : DmemKeptOrStored s t := by
  rcases exec_cases i s with ⟨d, v, -, e⟩ | ⟨p, e, -⟩ | ⟨rt, rs, imm, -, -, hr, e⟩ | ⟨rt, rs, imm, c, -, e⟩ <;>
    obtain rfl := Host.Outcome.next.inj (e.symm.trans h)
  · exact .inl (s.writeReg_dmem d v)
  · exact .inl rfl
  · exact .inr ⟨_, _, hr, rfl⟩
  · exact .inl rfl

theorem step_dmemKeptOrStored {s t : State} (hs : s.seq = .fetch) (h : step s = .next t) : DmemKeptOrStored s t := by
  rcases step_fetch_cases hs with ⟨_, -, e⟩ | ⟨w, _, -, -, e⟩ | ⟨_, _, -, -, e⟩ <;> rw [e] at h
  · obtain rfl := Host.Outcome.next.inj h
    exact .inl rfl
  · exact exec_dmemKeptOrStored (s := { s with scratch := stepRecord s w }) h
  · obtain rfl := Host.Outcome.next.inj h
    exact .inl rfl

/-- Either keeps the canonical form and the capacity. -/
theorem DmemKeptOrStored.wf_within {s t : State} (h : DmemKeptOrStored s t)
    (hd : s.dmem.wf = true ∧ s.dmem.within s.config.dmemBytes = true) :
    t.dmem.wf = true ∧ t.dmem.within s.config.dmemBytes = true := by
  obtain ⟨hwf, hin⟩ := hd
  rcases h with e | ⟨a, v, hr, e⟩ <;> rw [e]
  · exact ⟨hwf, hin⟩
  · exact ⟨Memory.wf_writeWord hwf _ _, Memory.within_writeWord hin ((inRange_iff _ a).1 hr) v⟩

/-! ## What the sequencer's state says (10_state.md R33, R35; 40_datapath.md R132) -/

theorem State.not_midStep_of_seqCoherent {s : State} (h : s.seqCoherent = true) : s.seq.midStep = false := by
  unfold State.seqCoherent at h
  split at h <;> simp_all [Seq.midStep]

theorem State.seq_ne_reset_of_seqCoherent {s : State} (h : s.seqCoherent = true) : s.seq ≠ .reset := by
  intro hs
  simp [State.seqCoherent, hs] at h

/-- Outside FAULTED the fault code is NONE (R35). -/
theorem State.fault_code_of_seqCoherent {s : State} (h : s.seqCoherent = true) (hs : s.seq ≠ .faulted) :
    s.fault.code = .none := by
  unfold State.seqCoherent at h
  split at h <;> simp_all

theorem State.seqCoherent_of_faulted {s : State} (hs : s.seq = .faulted) :
    s.seqCoherent = true ↔ s.fault.code ≠ .none ∧ s.fault.code ≠ .fetchMisaligned ∧ s.fault.pc = s.pc := by
  simp [State.seqCoherent, hs, and_assoc]

/-- What the termination check answers is coherent with the pc and the count it checked. -/
theorem State.seqCoherent_of_terminationSeq {s : State} (hs : s.seq = terminationSeq s.config s.pc s.icount)
    (hf : s.fault.code = .none) : s.seqCoherent = true := by
  rcases terminationSeq_cases s.config s.pc s.icount with
    ⟨hle, e⟩ | ⟨-, h0, e⟩ | ⟨hlt, h0, hl, e⟩ | ⟨hlt, h0, -, e⟩ <;> rw [e] at hs
  · simp [State.seqCoherent, hs, hle, hf]
  · simp [State.seqCoherent, hs, h0, hf]
  · simp [State.seqCoherent, hs, hlt, h0, hl, hf]
  · simp [State.seqCoherent, hs, hlt, h0, hf]

/-! ## The invariant of a run -/

/-- A step from FETCH at an aligned pc ends coherent: the termination check's answer when it completes, the record of
its cause when it faults. -/
theorem step_seqCoherent {s t : State} (hs : s.seq = .fetch) (hpc : s.pc.toNat % 4 = 0)
    (hcode : s.fault.code = .none) (h : step s = .next t) : t.seqCoherent = true := by
  rcases step_completes_or_faults hs h with
    ⟨_, _, -, -, tpc, tcount, tseq, tconfig, -, tfault, -⟩ | ⟨_, _, _, _, ⟨tseq, -, tpc, -⟩, -⟩
  · refine State.seqCoherent_of_terminationSeq ?_ ((congrArg FaultRecord.code tfault).trans hcode)
    rw [tseq, tconfig, tpc, tcount]
  · obtain ⟨hfpc, hcause⟩ := (faulted_iff_faultCause hs h t.fault).1 ⟨tseq, rfl⟩
    have hne : s.fault.code ≠ .fetchMisaligned := by rw [hcode]; decide
    exact (State.seqCoherent_of_faulted tseq).2
      ⟨hcause.code_ne_none, (step_keeps_aligned hs ⟨hpc, hne⟩ h).2, hfpc.trans tpc.symm⟩

/-- A step from FETCH keeps the configuration. -/
theorem step_config_of_fetch {s t : State} (hs : s.seq = .fetch) (h : step s = .next t) : t.config = s.config := by
  rcases step_completes_or_faults hs h with
    ⟨_, _, -, -, -, -, -, hconfig, -⟩ | ⟨_, _, _, _, ⟨-, -, -, -, -, -, hconfig, -⟩, -⟩ <;> exact hconfig

/-- Settles O54: a coherent state that makes a step is in FETCH, and such a step keeps each part of the invariant. -/
theorem stepKeepsInvariant : Obligations.StepKeepsInvariant := by
  rintro s t ⟨hwf, hzero, hpc, himem, hdmem, hco⟩ h
  have hs : s.seq = .fetch := seq_fetch_of_step_next (State.not_midStep_of_seqCoherent hco) h
  have hcode : s.fault.code = .none := State.fault_code_of_seqCoherent hco (by rw [hs]; decide)
  have hne : s.fault.code ≠ .fetchMisaligned := by rw [hcode]; decide
  have hpc4 : s.pc.toNat % 4 = 0 := (wordAligned_iff s.pc).1 hpc
  have tpc : wordAligned t.pc = true := (wordAligned_iff t.pc).2 (step_keeps_aligned hs ⟨hpc4, hne⟩ h).1
  unfold State.Inv
  rw [step_config_of_fetch hs h, step_readReg_zero hs h, step_imem h]
  exact ⟨hwf, hzero, tpc, himem, (step_dmemKeptOrStored hs h).wf_within hdmem, step_seqCoherent hs hpc4 hcode h⟩

/-- A legal SENTINEL lies above the pc of reset (00_scope.md R7). -/
theorem Config.zero_lt_sentinel {c : Config} (h : c.wf = true) : 0#32 < c.sentinel := by
  simp only [Config.wf, Bool.and_eq_true, bne_iff_ne] at h
  obtain ⟨⟨-, hne⟩, -⟩ := h
  exact (BitVec.pos_iff_ne_zero _).2 hne

/-- Settles O53: the parts of a legal setup, and the program load. -/
theorem releaseMeetsInvariant : Obligations.ReleaseMeetsInvariant := by
  intro p hp
  obtain ⟨hconfig, hlen, hdmem, himem, hin⟩ := Setup.wf_parts hp
  obtain ⟨hload, -, -, hloadin⟩ := loadWords_spec p.program p.imemInit 0 himem
  have hco : (State.released p).seqCoherent = true := by
    simp [State.seqCoherent, State.released, FaultRecord.cleared, Config.zero_lt_sentinel hconfig]
  exact ⟨hconfig, State.readReg_released_zero p, rfl, ⟨hload, hloadin p.config.imemBytes hin (by omega)⟩, hdmem, hco⟩

/-- Settles O52: `State.reset` is reset released on a legal setup. -/
theorem resetMeetsInvariant : Obligations.ResetMeetsInvariant := by
  rw [Obligations.ResetMeetsInvariant, ← State.released_initial]
  exact releaseMeetsInvariant Setup.initial (by decide)

/-- Settles O56: the induction over a run with the invariant, whose coherence gives the other parts. -/
theorem reachableStatesAreSound : Obligations.ReachableStatesAreSound := by
  intro s hs
  have hinv : s.Inv := hs.invariant releaseMeetsInvariant fun s t _ => stepKeepsInvariant s t
  obtain ⟨-, -, -, -, -, hco⟩ := id hinv
  exact ⟨hinv, State.fault_code_of_seqCoherent hco, State.not_midStep_of_seqCoherent hco,
    State.seq_ne_reset_of_seqCoherent hco⟩

end Sys2Proof.Machine
end

section
/-! SUPPORT. The sub-stages of a step under way, the record a completed step leaves, and the claims about one step that
follow (40_datapath.md). -/

namespace Sys2Proof.Machine

/-! ## Every step (R133 to R136) -/

/-- Settles O36: `step_next_cases`. -/
theorem everyFetchStepAnswers : Obligations.EveryFetchStepAnswers := by
  intro s hs
  obtain ⟨t, ht, -⟩ := step_next_cases hs
  exact ⟨t, ht⟩

/-- Settles O16: a step makes its record anew. -/
theorem stepIgnoresEarlierRecord : Obligations.StepIgnoresEarlierRecord := fun _ r hs => step_setScratch hs r

/-- The record of a step holds the step's pc (60_exceptions.md R193). -/
theorem stepRecord_pc (s : State) (w : Word) : (stepRecord s w).pc = s.pc := by
  cases h : dataAccess (executeRecord s w) s with
  | error c => rw [stepRecord_of_access_error h]; rfl
  | ok a => rw [stepRecord_of_access_ok (d := a.1) (t := a.2) h]; rfl

/-- Settles O35: the fetched word's instruction runs, and the record holds the word and the pc. -/
theorem stepRunsDecodedInstruction : Obligations.StepRunsDecodedInstruction :=
  fun s ir _ hs hf hd => ⟨step_of_decode hs hf hd, stepRecord_ir s ir, stepRecord_pc s ir⟩

/-! ## The configuration (10_state.md R37) -/

/-- A data access answers when its load and its store do (R128). -/
theorem dataAccess_ok {r : Scratch} {s t : State} {d : Option Word} (h : dataAccess r s = .ok (d, t)) :
    loadAccess r s = .ok d ∧ storeAccess r s = .ok t := by
  unfold dataAccess at h
  split at h
  · cases h
  · next hload =>
    split at h
    · cases h
    · next hstore =>
      cases h
      exact ⟨hload, hstore⟩

/-- A store changes data memory alone (20_memory.md R60). -/
theorem storeAccess_frame {r : Scratch} {s t : State} (h : storeAccess r s = .ok t) : t = { s with dmem := t.dmem } := by
  unfold storeAccess at h
  split at h
  · obtain ⟨-, -, rfl⟩ := State.memWrite_ok h
    rfl
  · cases h
    rfl

@[simp] theorem writeBack_config (r : Scratch) (s : State) : (writeBack r s).config = s.config := by
  unfold writeBack
  split
  · split <;> simp
  · rfl

theorem stage_config {s t : State} (h : stage s = some t) : t.config = s.config := by
  cases hs : s.seq <;> simp only [stage, hs, Option.some.injEq, reduceCtorEq] at h <;> subst h
  case fetch => unfold stageFetch; split <;> rfl
  case decode | regread | execute => rfl
  case memory =>
    unfold stageMemory
    split
    · rfl
    · next h => rw [storeAccess_frame (dataAccess_ok h).2]
  case writeback => exact writeBack_config s.scratch.wroteBack { s with scratch := s.scratch.wroteBack }

/-! ## The rest of a step under way (log 8) -/

theorem finishStep_of_not_midStep {s : State} (h : s.seq.midStep = false) (n : Nat) : finishStep n s = s := by
  cases n with
  | zero => rfl
  | succ n => simp [finishStep, h]

theorem finishStep_succ_of_stage {s t : State} (hm : s.seq.midStep = true) (h : stage s = some t) (n : Nat) :
    finishStep (n + 1) s = finishStep n t := by
  simp only [finishStep, hm, h, if_true]

theorem exists_stage_of_midStep {s : State} (hm : s.seq.midStep = true) : ∃ t, stage s = some t := by
  cases hs : s.seq <;> simp [stage, hs, Seq.midStep] at hm ⊢

/-- What every sub-stage keeps, the rest of a step keeps. -/
theorem finishStep_induction {P : State → Prop} (hstage : ∀ s t, stage s = some t → P s → P t) (n : Nat) {s : State}
    (h : P s) : P (finishStep n s) := by
  induction n generalizing s with
  | zero => exact h
  | succ n ih =>
    cases hm : s.seq.midStep with
    | false => rwa [finishStep_of_not_midStep hm]
    | true =>
      obtain ⟨t, ht⟩ := exists_stage_of_midStep hm
      rw [finishStep_succ_of_stage hm ht]
      exact ih (hstage s t ht h)

/-- Once the instruction is done, more sub-stages change nothing. -/
theorem finishStep_succ_of_done {n : Nat} {s : State} (h : (finishStep n s).seq.midStep = false) :
    finishStep (n + 1) s = finishStep n s := by
  induction n generalizing s with
  | zero => exact finishStep_of_not_midStep h 1
  | succ n ih =>
    cases hm : s.seq.midStep with
    | false => rw [finishStep_of_not_midStep hm, finishStep_of_not_midStep hm]
    | true =>
      obtain ⟨t, ht⟩ := exists_stage_of_midStep hm
      rw [finishStep_succ_of_stage hm ht] at h ⊢
      rw [ih h, finishStep_succ_of_stage hm ht]

/-- Settles O55: a step from FETCH by what it can do, one under way sub-stage by sub-stage. -/
theorem stepKeepsConfiguration : Obligations.StepKeepsConfiguration := by
  intro s t h
  cases hm : s.seq.midStep with
  | false => exact step_config_of_fetch (seq_fetch_of_step_next hm h) h
  | true =>
    obtain rfl := Host.Outcome.next.inj ((step_of_midStep hm).symm.trans h)
    exact finishStep_induction (P := fun u => u.config = s.config) (fun _ _ hst hc => (stage_config hst).trans hc) 5 rfl

/-- When the rest of a step is done, it is also the rest of the step after its first sub-stage. -/
theorem finishStep_of_stage {s t u : State} (hm : s.seq.midStep = true) (hst : stage s = some t)
    (h : finishStep 5 s = u) (hu : u.seq.midStep = false) : finishStep 5 t = u := by
  rw [finishStep_succ_of_stage hm hst] at h
  rw [finishStep_succ_of_done (h ▸ hu), h]

/-- Settles O34: the sub-stage states share the rest of the step, which is `step s` by the refinement of the six
sub-stages. -/
theorem stepFromAnyStageEndsAlike : Obligations.StepFromAnyStageEndsAlike := by
  intro s ir hs hf a b c d e
  have hstep : step s = .next (sequencedStep s) := stepRefinesSixStages s hs
  have hdone := step_not_midStep hs hstep
  have ha : a.seq = .decode := congrArg State.seq (stageFetch_of_ok hf)
  have hb : b.seq = .regread := rfl
  have hc : c.seq = .execute := rfl
  have hd : d.seq = .memory := rfl
  have fa : finishStep 5 a = sequencedStep s := rfl
  have fb := finishStep_of_stage (t := b) (by rw [ha]; rfl) (by rw [stage, ha]) fa hdone
  have fc := finishStep_of_stage (t := c) rfl rfl fb hdone
  have fd := finishStep_of_stage (t := d) rfl rfl fc hdone
  have fe := finishStep_of_stage (t := e) rfl rfl fd hdone
  have step_eq {x : State} (hm : x.seq.midStep = true) (fx : finishStep 5 x = sequencedStep s) : step x = step s := by
    rw [step_of_midStep hm, fx, hstep]
  refine ⟨⟨ha, hb, hc, hd, stageMemory_seq d⟩, step_eq (by rw [ha]; rfl) fa, step_eq rfl fb, step_eq rfl fc,
    step_eq rfl fd, fun he => step_eq (by rw [he]; rfl) fe, fun he => ?_⟩
  have hm : e.seq.midStep = false := by rw [he]; rfl
  rw [hstep, ← fe, finishStep_of_not_midStep hm]

/-! ## The record of a completed step (60_exceptions.md R193) -/

/-- No control row takes the loaded word without loading (log 19). -/
theorem controlUnit_memRead_of_memToReg {f : BitVec 6} (h : (controlUnit f).memToReg = true) :
    (controlUnit f).memRead = true := by
  unfold controlUnit at h ⊢
  split_ifs at h ⊢ <;> simp_all [ctlRow, ctlInert]

/-- With MemRead a load answers the word read, and otherwise no word (40_datapath.md R128). -/
theorem loadAccess_ok {r : Scratch} {s : State} {d : Option Word} (h : loadAccess r s = .ok d) :
    (r.ctl.memRead = true → ∃ v, s.memRead r.aluResult = .ok v ∧ d = some v) ∧
    (r.ctl.memRead = false → d = none) := by
  unfold loadAccess at h
  cases hre : r.ctl.memRead with
  | false =>
    simp only [hre, Bool.false_eq_true, if_false] at h
    cases h
    exact ⟨Bool.noConfusion, fun _ => rfl⟩
  | true =>
    cases hv : s.memRead r.aluResult with
    | error c => simp [hre, hv] at h
    | ok v =>
      simp only [hre, hv, if_true] at h
      cases h
      exact ⟨fun _ => ⟨v, rfl, rfl⟩, Bool.noConfusion⟩

/-- A step that fetches a word and does not fault makes its data access and commits with the complete record. -/
theorem step_completed {s t : State} {w : Word} (hs : s.seq = .fetch) (hf : s.imemRead s.pc = .ok w)
    (h : step s = .next t) (hne : t.seq ≠ .faulted) :
    ∃ d u, dataAccess (executeRecord s w) s = .ok (d, u) ∧
      t = (writeBack ((executeRecord s w).memoryDone d).wroteBack
        { u with scratch := ((executeRecord s w).memoryDone d).wroteBack }).commit (executeRecord s w).selectPc := by
  obtain rfl := Host.Outcome.next.inj ((stepRefinesSixStages s hs).symm.trans h)
  cases hacc : dataAccess (executeRecord s w) s with
  | error c => exact absurd (by rw [sequencedStep_of_access_error hf hacc]; rfl) hne
  | ok a =>
    obtain ⟨d, u⟩ := a
    refine ⟨d, u, rfl, ?_⟩
    rw [sequencedStep_of_access_ok hf hacc, stepRecord_of_access_ok hacc]

/-- A record whose load answered has a write-back value. -/
theorem wbValue_isSome {s : State} {w : Word} {d : Option Word}
    (h : loadAccess (executeRecord s w) s = .ok d) :
    ((executeRecord s w).memoryDone d).wroteBack.wbValue.isSome = true := by
  change (if (controlUnit (fieldFunc w)).memToReg then d else some _).isSome = true
  split
  · next hm =>
    obtain ⟨v, -, rfl⟩ := (loadAccess_ok h).1 (controlUnit_memRead_of_memToReg hm)
    rfl
  · rfl

/-- With RegWrite the write-back value is in its register, unless that is register 0 (R130). -/
theorem writeBack_readReg {r : Scratch} {v : Word} (s : State) (hw : r.ctl.regWrite = true)
    (hv : r.wbValue = some v) (hd : r.wbIndex ≠ 0#5) : (writeBack r s).readReg r.wbIndex = v := by
  simp only [writeBack, hw, hv, if_true]
  exact s.readReg_writeReg_same v hd

theorem mnemonicOf_of_op {w : Word} {o : AsmOp} (h : decodeOp w = .op o) : mnemonicOf w = some o.mnemonic := by
  simp only [mnemonicOf, h]

theorem mnemonicOf_of_unknown {w : Word} {f : BitVec 6} (h : decodeOp w = .unknown f) : mnemonicOf w = none := by
  simp only [mnemonicOf, h]

/-- A write that the trace shows is one the record makes (log 20). -/
theorem Scratch.trace_write {r : Scratch} {i : RegIx} {v : Word} (hi : r.trace.wbIndex = some i)
    (hv : r.trace.wbValue = some v) : r.ctl.regWrite = true ∧ r.wbIndex = i ∧ r.wbValue = some v := by
  cases hw : r.ctl.regWrite <;> simp_all [Scratch.trace, whenUsed]

theorem terminationSeq_ne_reset (c : Config) (pc : Word) (n : BitVec 64) : terminationSeq c pc n ≠ .reset := by
  rcases terminationSeq_cases c pc n with ⟨_, e⟩ | ⟨_, _, e⟩ | ⟨_, _, _, e⟩ | ⟨_, _, _, e⟩ <;> rw [e] <;> decide

/-- A commit of a record with a write-back value is a completed step. -/
theorem completedStep_commit {s : State} {p : Word} (h : s.scratch.wbValue.isSome = true) :
    (s.commit p).completedStep = true := by
  simp [State.completedStep, terminationSeq_not_midStep, terminationSeq_ne_reset, terminationSeq_ne_faulted, h]

/-- Settles O50: the trace is that of `executeRecord` with the loaded word, the next pc and the write-back value. -/
theorem traceOfCompletedStep : Obligations.TraceOfCompletedStep := by
  intro s t w hs hf h hne
  obtain ⟨d, u, hacc, rfl⟩ := step_completed hs hf h hne
  obtain ⟨hload, -⟩ := dataAccess_ok hacc
  obtain ⟨hloaded, hunloaded⟩ := loadAccess_ok hload
  refine ⟨((executeRecord s w).memoryDone d).wroteBack.trace, ?_, rfl, rfl, rfl, rfl, rfl, rfl, rfl, rfl, rfl, rfl, rfl,
    rfl, fun _ => mnemonicOf_of_op, fun _ => mnemonicOf_of_unknown, rfl, rfl, rfl, hloaded, hunloaded, rfl, rfl, rfl,
    rfl, rfl, ?_⟩
  · rw [State.traceRecord, completedStep_commit (by rw [writeBack_scratch]; exact wbValue_isSome hload),
      State.commit_scratch, writeBack_scratch]
    rfl
  · intro i v hi hv hi0
    obtain ⟨hw, rfl, hv⟩ := Scratch.trace_write hi hv
    exact writeBack_readReg _ hw hv hi0

end Sys2Proof.Machine
end

section
/-! SUPPORT. The claims about single instructions (its destination register, its data access, a load after a store), and
about the snapshot and the idle interfaces. -/

namespace Sys2Proof.Machine

/-! ## The destination register (10_state.md R24) -/

/-- Settles O14: an instruction that writes a register writes its destination, and the others leave the registers. -/
theorem onlyDestinationRegisterChanges : Obligations.OnlyDestinationRegisterChanges := by
  intro i s t r h hr
  rcases exec_cases i s with ⟨d, v, hd, e⟩ | ⟨p, e, -⟩ | ⟨rt, rs, imm, -, -, -, e⟩ | ⟨rt, rs, imm, c, -, e⟩ <;>
    obtain rfl := Host.Outcome.next.inj (e.symm.trans h)
  · rw [State.readReg_commit, State.readReg_writeReg] at hr
    obtain ⟨rfl, hr0⟩ : r = d ∧ r ≠ 0#5 := by
      by_contra hnot
      exact hr (if_neg hnot)
    exact ⟨hd, hr0⟩
  · exact absurd rfl hr
  · exact absurd rfl hr
  · exact absurd rfl hr

/-! ## Data accesses (20_memory.md R65, R68) -/

/-- Settles O25: only LW and SW can end in FAULTED, and their rows make an access. -/
theorem atMostOneDataAccess : Obligations.AtMostOneDataAccess := by
  refine ⟨controlUnit_not_both, fun i s t hre hwe h => ?_⟩
  obtain ⟨t', ht', hne | ⟨rt, rs, imm, c, ⟨rfl, -⟩ | ⟨rfl, -⟩⟩⟩ := exec_next_cases i s
  · obtain rfl := Host.Outcome.next.inj (ht'.symm.trans h)
    exact hne
  · exact absurd ((congrArg Ctl.memRead control_lw).symm.trans hre) (by decide)
  · exact absurd ((congrArg Ctl.memWrite control_sw).symm.trans hwe) (by decide)

/-- Two aligned words are the same word or do not meet. -/
theorem Memory.readWord_writeWord_of_aligned {m : Memory} (hwf : m.wf = true) (v : Word) {a b : Word}
    (ha : wordAligned a = true) (hb : wordAligned b = true) :
    (m.writeWord a.toNat v).readWord b.toNat = if b = a then v else m.readWord b.toNat := by
  split
  · next hab => rw [hab, Memory.readWord_writeWord_same hwf]
  · next hab =>
    have hne : b.toNat ≠ a.toNat := fun e => hab (BitVec.eq_of_toNat_eq e)
    have ha4 := (wordAligned_iff a).1 ha
    have hb4 := (wordAligned_iff b).1 hb
    exact m.readWord_writeWord_other _ v (by omega)

/-- A SW that does not fault stores the word at an aligned address and advances. -/
theorem exec_sw_completed {rt rs : RegIx} {imm : BitVec 16} {s t : State} (h : exec (.sw rt rs imm) s = .next t)
    (hne : t.seq ≠ .faulted) :
    wordAligned (s.effectiveAddr rs imm) = true ∧
      t = ({ s with dmem := s.dmem.writeWord (s.effectiveAddr rs imm).toNat (s.readReg rt) } : State).advance := by
  cases hf : accessFault .store s.config.dmemBytes (s.effectiveAddr rs imm) with
  | some c =>
    obtain rfl := Host.Outcome.next.inj ((exec_sw_of_fault hf).symm.trans h)
    exact absurd rfl hne
  | none =>
    obtain ⟨ha, -⟩ := (accessFault_eq_none _ _ _).1 hf
    exact ⟨ha, (Host.Outcome.next.inj ((exec_sw_of_no_fault hf).symm.trans h)).symm⟩

/-- Settles O27: the store of SW, the load of LW, and what an aligned word reads after the store. -/
theorem storeThenLoad : Obligations.StoreThenLoad := by
  intro s t rt rs rt' rs' imm imm' hwf hsw hne hrt hb hr
  obtain ⟨ha, ht⟩ := exec_sw_completed hsw hne
  have hlw := exec_lw_of_no_fault (rt := rt') ((accessFault_eq_none .load _ _).2 ⟨hb, hr⟩)
  obtain ⟨hreg, -, -, -, hseq⟩ := writeReg_advance_spec t rt' (t.dmem.readWord (t.effectiveAddr rs' imm').toNat)
  refine ⟨_, hlw, hseq, (hreg hrt).trans ?_⟩
  have hmem : t.dmem = s.dmem.writeWord (s.effectiveAddr rs imm).toNat (s.readReg rt) := by rw [ht]; rfl
  rw [hmem]
  exact Memory.readWord_writeWord_of_aligned hwf _ ha hb

/-! ## The snapshot (70_reset_and_hazards.md R203, R204) -/

theorem State.snapshot_of_stopped {s : State} (h : s.seq.stopped = true) :
    s.snapshot =
      some ⟨s.regs, s.imem, s.dmem, s.pc, s.icount, s.seq, if s.seq = .faulted then some s.fault else none⟩ := if_pos h

theorem State.stopped_of_snapshot {s : State} {n : Snapshot} (h : s.snapshot = some n) : s.seq.stopped = true := by
  by_contra hs
  cases (if_neg hs).symm.trans h

/-- Settles O51: a snapshot is one of a stop state, and holds its fields. -/
theorem snapshotInStopStates : Obligations.SnapshotInStopStates := by
  refine fun s => ⟨fun n hn => ?_, fun hs => ⟨_, State.snapshot_of_stopped hs⟩⟩
  have hs := State.stopped_of_snapshot hn
  obtain rfl := Option.some.inj ((State.snapshot_of_stopped hs).symm.trans hn)
  exact ⟨hs, rfl, rfl, rfl, rfl, rfl, rfl, fun hf => if_pos hf, fun hf => if_neg hf⟩

/-! ## The idle interfaces (log 17) -/

theorem State.regPorts_read_of_not_regread {s : State} (h : s.seq ≠ .regread) :
    s.regPorts.readAddr1 = none ∧ s.regPorts.readData1 = none ∧
    s.regPorts.readAddr2 = none ∧ s.regPorts.readData2 = none := by
  unfold State.regPorts
  rw [if_neg h]
  split <;> exact ⟨rfl, rfl, rfl, rfl⟩

theorem State.regPorts_write_of_not_writeback {s : State} (h : s.seq ≠ .writeback) :
    s.regPorts.writeAddr = none ∧ s.regPorts.writeData = none ∧ s.regPorts.writeEnable = false := by
  unfold State.regPorts
  rw [if_neg h]
  split <;> exact ⟨rfl, rfl, rfl⟩

/-- The read data of the data memory in MEMORY. -/
theorem State.dmemPort_rdata {s : State} (h : s.seq = .memory) :
    s.dmemPort.rdata = if s.scratch.ctl.memRead then readData (s.memRead s.scratch.aluResult) else none := by
  simp [State.dmemPort, h]

/-- Settles O57: each port outside its sub-stage, and the read data of an access that faults or is not made. -/
theorem idleInterfaceSignals : Obligations.IdleInterfaceSignals := by
  refine fun s => ⟨fun h => if_neg h, State.dmemPort_of_not_memory, fun c h hf => ?_, fun c h hf => ?_, fun h hre => ?_,
    State.regPorts_read_of_not_regread, State.regPorts_write_of_not_writeback⟩
  · rw [State.imemPort_of_fetch h, hf]
    rfl
  · rw [State.dmemPort_rdata h, hf]
    exact ite_self _
  · rw [State.dmemPort_rdata h, hre]
    rfl

end Sys2Proof.Machine
end
